-- ==== Sys2Proof/Word.lean ====
section
/-! DEFINITION. The words of the block: a byte and the 16-bit checksum (R8). -/

namespace Sys2Proof

/-- A byte is 8 bits (R8). -/
abbrev Byte := BitVec 8

/-- The checksum is 16 bits (R8). -/
abbrev Word16 := BitVec 16

end Sys2Proof
end

