-- ==== Sys2Proof/Syntax.lean ====
section
/-! DEFINITION. The command value (R21), its presentation at the command port (R35, R91), and the instructions: one constructor per
row of the opcode table (R98, R106, R161 to R167). -/

namespace Sys2Proof

/-- A payload is a byte sequence of at most 255 bytes, by type (R21, R105): a longer one cannot be written down. -/
structure Payload where
  bytes : List Byte
  bound : bytes.length ≤ 255
  deriving DecidableEq, Repr

/-- A Command is the pair `(op, payload)` (R21). It is immutable and carries nothing else. -/
structure Command where
  op : Byte
  payload : Payload
  deriving DecidableEq, Repr

/-- A Command is valid when `op <= 127` (R21). -/
def Command.valid (c : Command) : Bool := c.op.toNat ≤ 127

/-- What a producer drives on the command port (R35). -/
structure CmdPort where
  /-- `cmd_op`. -/
  op : Byte
  /-- `cmd_len`. -/
  len : Byte
  /-- `cmd_data`, cut into bytes: byte `i` is the lines `8*i+7 .. 8*i`. Lines past the end of the list are 0; there are lines for 255
  bytes, and no value of `cmd_len` reaches further. -/
  data : List Byte
  deriving DecidableEq, Repr

/-- The commands of the opcode table, in its order. A command is given to the block by a producer. -/
inductive Instr where
  /-- `Reset()` (R166). -/
  | reset
  /-- `LED(r, g, b)` (R165). -/
  | led (r g b : Byte)
  /-- `Motor1(value)`, alias (R162). -/
  | motor1 (value : Byte)
  /-- `Servo(value)`, alias (R163). -/
  | servo (value : Byte)
  /-- `Motor2(value)`, alias (R164). -/
  | motor2 (value : Byte)
  /-- `SetBitsnap(channel, value)` (R161). -/
  | setbitsnap (channel value : Byte)
  /-- `Command(op, payload)` used directly (R167). -/
  | raw (op : Byte) (payload : Payload)
  deriving DecidableEq, Repr

end Sys2Proof
end

