-- ==== Sys2Proof/Machine/Operands.lean ====
section
/-! DEFINITION. Operand forms: how an argument becomes a byte (R107), how bytes become a payload, and how the fields of a frame are
assembled (R12, R93, R94, R134). -/

namespace Sys2Proof.Machine

/-- `trunc_8(v) = v mod 256`; for a negative number its low 8 bits. The only reduction a caller may make (R12, R107). -/
def trunc8 (v : Int) : Byte := BitVec.ofInt 8 v

/-- `hi8(w) = w[15:8]` (R12). -/
def hi8 (w : Word16) : Byte := w.extractLsb' 8 8

/-- `lo8(w) = w[7:0]` (R12). -/
def lo8 (w : Word16) : Byte := w.extractLsb' 0 8

/-- `header = zext_8(op) << 1`, 8 bits (R93, R134 (a)). -/
def headerByte (op : Byte) : Byte := op <<< 1

/-- `length = len(payload)` as one unsigned byte (R94, R134 (b)). -/
def lengthByte (p : Payload) : Byte := BitVec.ofNat 8 p.bytes.length

/-- The payload of no bytes (R135). -/
def payload0 : Payload := ⟨[], by decide⟩

/-- The payload `[a, b]` (R161). -/
def payload2 (a b : Byte) : Payload := ⟨[a, b], by simp⟩

/-- The payload `[a, b, c]` (R165, R166). -/
def payload3 (a b c : Byte) : Payload := ⟨[a, b, c], by simp⟩

end Sys2Proof.Machine
end

