-- ==== Sys2Proof/Machine/Codec.lean ====
section
/-! DEFINITION. The Frame Codec: `CRC16` (R131, R9), its table-driven form (R133), `ENCODE` (R130), and the byte-serial encoder with
its working registers (R29, R138). -/

namespace Sys2Proof.Machine

/-- One shift of the bit-serial checksum: bit 15 is tested, then lost (R131, R134 (c)); `CRC_POLY = 0x1021` (R9). -/
def crcShift (crc : Word16) : Word16 := if crc.msb then (crc <<< 1) ^^^ 0x1021 else crc <<< 1

/-- `n` shifts one after another. -/
def crcShifts : Nat → Word16 → Word16
  | 0, crc => crc
  | n + 1, crc => crcShifts n (crcShift crc)

/-- One payload byte enters at the top, most significant bit first (R131, R63). -/
def crcByte (crc : Word16) (b : Byte) : Word16 := crcShifts 8 (crc ^^^ (b.setWidth 16 <<< 8))

/-- The bytes of a sequence in payload order, index 0 first (R131). -/
def crcFrom (crc : Word16) (bytes : List Byte) : Word16 := bytes.foldl crcByte crc

/-- `CRC16(bytes)`, from `CRC_INIT = 0xFFFF`, no reflection, no final XOR (R131, R9). -/
def crc16 (bytes : List Byte) : Word16 := crcFrom 0xFFFF bytes

/-- The entry `T[i]`: what eight shifts leave from `zext_16(i) << 8` (R133). -/
def crcTableEntry (i : Byte) : Word16 := crcShifts 8 (i.setWidth 16 <<< 8)

/-- The table-driven update for one byte (R133). -/
def crcByteByTable (crc : Word16) (b : Byte) : Word16 := (crc <<< 8) ^^^ crcTableEntry (hi8 crc ^^^ b)

/-- The checksum computed with the table (R133). -/
def crc16ByTable (bytes : List Byte) : Word16 := bytes.foldl crcByteByTable 0xFFFF

/-- `ENCODE(op, payload)` (R130): header, length, the payload unchanged, then the checksum of the payload alone, high byte first
(R92 to R96). It is defined on every opcode byte for convenience; only valid commands reach it, and no claim rests on its value for
the others (R140). -/
def encodeCommand (c : Command) : List Byte :=
  headerByte c.op :: lengthByte c.payload :: (c.payload.bytes ++ [hi8 (crc16 c.payload.bytes), lo8 (crc16 c.payload.bytes)])

/-- Byte `i` of `cmd_data` (R35). -/
def dataByte (data : List Byte) (i : Nat) : Byte := data.getD i 0

/-- The payload presented with `cmd_len` and `cmd_data`: data bytes at index `>= cmd_len` are ignored (R35). -/
def payloadOfLines (len : Byte) (data : List Byte) : Payload :=
  ⟨(List.range len.toNat).map (dataByte data), by have := len.isLt; simp only [List.length_map, List.length_range]; omega⟩

/-- The encoder's working registers (R29), and whether a frame is part way out of the wire port (R35, R223 (c)). -/
structure Encoder where
  /-- `crc`: the running checksum, 16 bits. -/
  crc : Word16
  /-- `idx`: the index of the next frame byte to emit, 9 bits. -/
  idx : BitVec 9
  /-- `cur`: the Command being encoded. -/
  cur : Command
  /-- A frame is part way out: byte 0 has been transferred and the last byte has not. DEDUCED (log 18). -/
  sending : Bool
  deriving DecidableEq, Repr

/-- Frame start: `crc <- 0xFFFF ; idx <- 0` (R138), so nothing survives from the frame before (R139). -/
def Encoder.load (c : Command) : Encoder := ⟨0xFFFF, 0, c, true⟩

/-- The byte emitted at the present `idx` (R138). -/
def Encoder.byte (e : Encoder) : Byte :=
  if e.idx = 0 then headerByte e.cur.op
  else if e.idx = 1 then lengthByte e.cur.payload
  else if h : e.idx.toNat - 2 < e.cur.payload.bytes.length then e.cur.payload.bytes[e.idx.toNat - 2]
  else if e.idx.toNat = e.cur.payload.bytes.length + 2 then hi8 e.crc
  else lo8 e.crc

/-- `tx_last = 1` with the final checksum byte, `idx = N+3` (R138). -/
def Encoder.last (e : Encoder) : Bool := e.idx.toNat == e.cur.payload.bytes.length + 3

/-- After each emit: payload bytes, and only they, pass through the checksum update; `idx <- idx + 1` (R138). -/
def Encoder.advance (e : Encoder) : Encoder :=
  let crc := if 2 ≤ e.idx.toNat ∧ e.idx.toNat < e.cur.payload.bytes.length + 2 then crcByte e.crc e.byte else e.crc
  ⟨crc, e.idx + 1, e.cur, !e.last⟩

/-- The next `n` bytes the encoder emits (R138). -/
def Encoder.emit : Nat → Encoder → List Byte
  | 0, _ => []
  | n + 1, e => e.byte :: e.advance.emit n

/-- The whole frame of a command, byte by byte (R138). -/
def serialFrame (c : Command) : List Byte := Encoder.emit (c.payload.bytes.length + 4) (Encoder.load c)

end Sys2Proof.Machine
end

