-- ==== Sys2Proof/Machine/Commands.lean ====
section
/-! DEFINITION. The Command Model (R160): the stateless constructors of the command set, each from bytes to an `(op, payload)` pair. -/

namespace Sys2Proof.Machine

/-- `SetBitsnap(channel, value) = Command(0x0A, [channel, value])`; any channel passes through (R161, R103). -/
def cmdSetBitsnap (channel value : Byte) : Command := ⟨0x0A, payload2 channel value⟩

/-- `Motor1(value) = SetBitsnap(0, value)` (R162). -/
def cmdMotor1 (value : Byte) : Command := cmdSetBitsnap 0 value

/-- `Servo(value) = SetBitsnap(1, value)` (R163). -/
def cmdServo (value : Byte) : Command := cmdSetBitsnap 1 value

/-- `Motor2(value) = SetBitsnap(2, value)` (R164). -/
def cmdMotor2 (value : Byte) : Command := cmdSetBitsnap 2 value

/-- `LED(r, g, b) = Command(0x09, [r, g, b])` (R165). -/
def cmdLed (r g b : Byte) : Command := ⟨0x09, payload3 r g b⟩

/-- `Reset() = Command(0x0E, [0x7F, 0x7F, 0x7F])`, also `RESET_CMD` (R166). -/
def cmdReset : Command := ⟨0x0E, payload3 0x7F 0x7F 0x7F⟩

/-- `Command(op, payload)`; constructing it raises nothing, even for `op >= 128` (R167). -/
def cmdRaw (op : Byte) (payload : Payload) : Command := ⟨op, payload⟩

end Sys2Proof.Machine

namespace Sys2Proof

/-- The command each instruction constructs (R160 to R167). -/
def Instr.command : Instr → Command
  | .reset => Machine.cmdReset
  | .led r g b => Machine.cmdLed r g b
  | .motor1 v => Machine.cmdMotor1 v
  | .servo v => Machine.cmdServo v
  | .motor2 v => Machine.cmdMotor2 v
  | .setbitsnap ch v => Machine.cmdSetBitsnap ch v
  | .raw op p => Machine.cmdRaw op p

end Sys2Proof
end

