-- ==== Sys2Proof/WellFormed.lean ====
section
/-! DEFINITION. Which instructions stand for a valid command (R21, R104), and which are the spelling a decoder answers (spec/INDEX.md,
"priority orders a decoder": aliases, then defined commands, then RAW). -/

namespace Sys2Proof

/-- The command the instruction constructs is valid: only RAW can hold an opcode of 128 to 255, which ENQUEUE refuses (R104, R167).
The other bound, a payload of at most 255 bytes, holds by type (R105). -/
def Instr.wellFormed : Instr → Bool
  | .reset => true
  | .led _ _ _ => true
  | .motor1 _ => true
  | .servo _ => true
  | .motor2 _ => true
  | .setbitsnap _ _ => true
  | .raw op _ => op.toNat ≤ 127

/-- The instruction is the spelling of highest priority of its command: SETBITSNAP has a channel without an alias (R162 to R164), and
RAW has none of the shapes of the defined commands (R167, "the block cannot tell how a command was constructed"). -/
def Instr.canonical : Instr → Bool
  | .reset => true
  | .led _ _ _ => true
  | .motor1 _ => true
  | .servo _ => true
  | .motor2 _ => true
  | .setbitsnap ch _ => ch != 0 && ch != 1 && ch != 2
  | .raw op p =>
    !(op == 0x0A && p.bytes.length == 2) && !(op == 0x09 && p.bytes.length == 3) && !(op == 0x0E && p.bytes == [0x7F, 0x7F, 0x7F])

end Sys2Proof
end

