-- ==== Sys2Proof/Decode.lean ====
section
/-! DEFINITION. Decoding: a command at the command port to the instruction it is (R35, R91, and the priority of spec/INDEX.md), a frame
to the same (R108, for tests: the block itself never decodes a frame), the table's words; and the encoders after it. -/

namespace Sys2Proof

open Machine

/-- The instruction a command is: aliases first, then the defined commands, then RAW (spec/INDEX.md; R98, R106). -/
def decodeCommand (c : Command) : Instr :=
  match c.payload.bytes with
  | [a, b] =>
    if c.op = 0x0A then
      if a = 0 then .motor1 b
      else if a = 1 then .servo b
      else if a = 2 then .motor2 b
      else .setbitsnap a b
    else .raw c.op c.payload
  | [r, g, b] =>
    if c.op = 0x09 then .led r g b
    else if c.op = 0x0E ∧ r = 0x7F ∧ g = 0x7F ∧ b = 0x7F then .reset
    else .raw c.op c.payload
  | _ => .raw c.op c.payload

/-- The command that stands on the command port: `cmd_op`, and the first `cmd_len` bytes of `cmd_data` (R35, R91). -/
def commandOfPort (p : CmdPort) : Command := ⟨p.op, payloadOfLines p.len p.data⟩

/-- The decoder of the step's fetch: total, since every value of the port's lines is a command (R91, R167). -/
def decodePort (p : CmdPort) : Instr := decodeCommand (commandOfPort p)

/-- Why a byte sequence is no well-formed frame (R108). -/
inductive FrameError where
  /-- `len(f) >= 4` fails. -/
  | tooShort
  /-- `len(f) = 4 + f[1]` fails. -/
  | lengthMismatch
  /-- `f[0][0] = 0` fails: the reserved header bit is set (R101). -/
  | reservedBit
  /-- The last two bytes are not the checksum of the payload. -/
  | badChecksum
  deriving DecidableEq, Repr

/-- The command of a well-formed frame, or the first condition of R108 that fails: `op = f[0] >> 1`, `payload = f[2 .. len(f)-3]`. -/
def commandOfFrame (f : List Byte) : Except FrameError Command :=
  match f with
  | header :: length :: rest =>
    if rest.length < 2 then .error .tooShort
    else if h : rest.length = length.toNat + 2 then
      let payload := rest.take length.toNat
      if header.getLsbD 0 then .error .reservedBit
      else if rest.drop length.toNat = [hi8 (crc16 payload), lo8 (crc16 payload)] then
        .ok ⟨header >>> 1, ⟨payload, by have := length.isLt; simp only [payload, List.length_take]; omega⟩⟩
      else .error .badChecksum
    else .error .lengthMismatch
  | _ => .error .tooShort

/-- Decode a whole frame, rejecting by name (R108). -/
def decodeFrame (f : List Byte) : Except FrameError Instr := (commandOfFrame f).map decodeCommand

/-- Byte `k` of the frame a table row numbers. The row's words are 16 bits, header byte in bits 15..8 and length byte in bits 7..0
(spec/INDEX.md, `match`); a later word counts on from bit 16; bits from `nbits` on are 0; a last byte alone fills the low half of its
word. DESIGN CHOICE (log 14). -/
def tableByte (nbits w k : Nat) : Byte :=
  let alone := nbits / 8 = k + 1
  let low := 16 * (k / 2) + (if k % 2 = 0 ∧ ¬ alone then 8 else 0)
  BitVec.ofNat 8 ((w % 2 ^ nbits) / 2 ^ low)

/-- The command port's lines for the command of a table word: opcode from `header[7:1]`, length, payload. The checksum bits of a row
are computed, not free (spec/INDEX.md), and the port has no lines for them; a word with header bit 0 set stands for no command (R101). -/
def portOfTableWord (nbits w : Nat) : Option CmdPort :=
  let header := tableByte nbits w 0
  let len := tableByte nbits w 1
  if header.getLsbD 0 then none
  else some ⟨header >>> 1, len, (List.range len.toNat).map fun k => tableByte nbits w (k + 2)⟩

/-- The instruction the decoder reads from a table word. -/
def decodeTableWord (nbits w : Nat) : Option Instr := (portOfTableWord nbits w).map decodePort

/-- The command port's lines for a command (R35, R91). -/
def portOfCommand (c : Command) : CmdPort :=
  ⟨c.op, lengthByte c.payload, c.payload.bytes⟩

/-- The command port's lines for an instruction. -/
def encodePort (i : Instr) : CmdPort := portOfCommand i.command

/-- The words of an instruction: the bytes of its frame, as the opcode table's `encoding` column lays them out (R92, R99). -/
def encode (i : Instr) : List Byte := encodeCommand i.command

/-- The number of a frame as a table row numbers it: pairs of bytes into 16-bit words, the first byte high, later words from bit 16 on, a
byte left alone in the low half (log 14). -/
def tableWord : List Byte → Nat
  | [] => 0
  | [b] => b.toNat
  | a :: b :: rest => a.toNat * 256 + b.toNat + 65536 * tableWord rest

/-- The spelling of highest priority of the same command. -/
def Instr.canon (i : Instr) : Instr := decodeCommand i.command

end Sys2Proof
end

