-- ==== Sys2Proof/Config.lean ====
section
/-! DEFINITION. What an instance of the block fixes (R6, R7, R27), and the free values the spec leaves open (R29, R36, R281). -/

namespace Sys2Proof

/-- `BP_POLICY` (R7): what ENQUEUE does on a full queue. -/
inductive BpPolicy where
  /-- The producer is held until there is room; the reference behaviour and the default. -/
  | block
  /-- The producer gets `QueueFull` at once. -/
  | failFast
  deriving DecidableEq, Repr

/-- The configuration fields, read only after instantiation (R27). `QDEPTH >= 1` holds by type (R6). -/
structure Config where
  qdepth : Nat
  qdepth_pos : 1 ≤ qdepth
  policy : BpPolicy
  deriving DecidableEq, Repr

/-- The defaults: `QDEPTH = 100`, `BP_POLICY = Block` (R6, R7, R27). -/
def Config.default : Config := ⟨100, by decide, .block⟩

/-- DESIGN CHOICE (log 10). Free value: what the encoder's `crc` register holds while no frame is being sent (R29, R281). -/
opaque Config.restCrc : Nat → Word16

/-- DESIGN CHOICE (log 10). Free value: what the encoder's `idx` register holds while no frame is being sent (R29, R281). -/
opaque Config.restIdx : Nat → BitVec 9

/-- DESIGN CHOICE (log 10). Free value: the opcode part of the encoder's `cur` register while no frame is being sent (R29, R281). -/
opaque Config.restOp : Nat → Byte

/-- DESIGN CHOICE (log 10). Free value: the length part of the encoder's `cur` register while no frame is being sent (R29, R281). -/
opaque Config.restLen : Nat → Byte

/-- DESIGN CHOICE (log 10). Free value: the payload part of the encoder's `cur` register while no frame is being sent (R29, R281). -/
opaque Config.restData : Nat → List Byte

end Sys2Proof
end

