-- ==== Sys2Proof/Machine/State.lean ====
section
/-! DEFINITION. The state of one block instance (R20), the history (R26), the moves of the agents (R5, R180, R227), why a step can stop,
and the machine right after hardware reset (R36). -/

namespace Sys2Proof.Machine

/-- The dispatcher state (R24). -/
inductive DState where
  | created
  | running
  | draining
  | stopped
  deriving DecidableEq, Repr

/-- The code of a refused ENQUEUE (R240, R242 to R244). -/
inductive RefusalCode where
  /-- Full queue under `FailFast` (R242). -/
  | queueFull
  /-- The input has been closed (R243). -/
  | closed
  /-- Opcode 128 to 255 in `Running` (R244). -/
  | badCommand
  deriving DecidableEq, Repr

/-- What an ENQUEUE that is not held answers the producer (R182, R248). -/
inductive Response where
  | accepted
  | refused (code : RefusalCode)
  deriving DecidableEq, Repr

/-- The sink's answer to a write (R220). -/
inductive Answer where
  | ok
  | error
  deriving DecidableEq, Repr

/-- The events of the history (R26). -/
inductive Event where
  | started
  | accepted (c : Command)
  | refused (c : Command) (code : RefusalCode)
  | issued (f : List Byte)
  | completed (a : Answer)
  | closeRequested
  | stopped
  deriving DecidableEq, Repr

/-- One entry of the failure log: the command whose write failed (R25). -/
structure WriteError where
  command : Command
  deriving DecidableEq, Repr

/-- What the bootstrap operation ends in (R224, R245, R246). It happens outside the block. -/
inductive EstablishResult where
  /-- The sink is bound and the host issues START (R225). -/
  | ready
  /-- `TimeoutError`: no START (R246). -/
  | timeoutError
  /-- `DiscoveryError`: no START (R245). -/
  | discoveryError
  deriving DecidableEq, Repr

/-- A step of an agent other than ENQUEUE (R180, R220, R227, R138). -/
inductive AgentStep where
  /-- Hardware reset, by the host (R280). -/
  | hardwareReset
  /-- The bootstrap at its boundary, by the host (R224). -/
  | establish (r : EstablishResult)
  /-- START, by the host (R181). -/
  | start
  /-- CLOSE, by the host (R186). -/
  | close
  /-- The host reads the status port (R227). -/
  | statusRead
  /-- DISPATCH, by the consumer (R183). -/
  | dispatch
  /-- One byte transfer on the wire port: the signal-level form of DISPATCH and of the rest of the frame (R35, R138). -/
  | wireTransfer
  /-- RESPOND, by the sink: COMPLETE_OK or COMPLETE_ERR (R220). -/
  | respond (a : Answer)
  deriving DecidableEq, Repr

/-- What happens next in a run: a producer presents a command at the command port, or another agent makes its step. -/
inductive Move where
  | command (p : CmdPort)
  | agent (a : AgentStep)
  deriving DecidableEq, Repr

/-- The state. `dstate`, `queue`, `inflight` and `log` are the architectural state (R20); `cfg` is the configuration (R27); `hist` is
the history (R26); `enc` holds the encoder's working registers (R29); `resp` and `werr` are outputs of the latest step (R35); `agenda`
and `draws` are the model's own (log 3, log 10). -/
structure State where
  /-- `QDEPTH` and `BP_POLICY` (R27). No step writes them. -/
  cfg : Config
  /-- The dispatcher state (R24). -/
  dstate : DState
  /-- The commands waiting, the head first (R22). -/
  queue : List Command
  /-- The command whose write is outstanding (R23). -/
  inflight : Option Command
  /-- The write failures so far, oldest first (R25). -/
  log : List WriteError
  /-- The events so far, oldest first (R26). -/
  hist : List Event
  /-- The encoder's working registers (R29). -/
  enc : Encoder
  /-- What the latest step answered the producer, if it was an ENQUEUE that was not held (R13, R182). -/
  resp : Option Response
  /-- The `werr` strobe: the latest step was COMPLETE_ERR (R35, R185). -/
  werr : Bool
  /-- The moves the agents make, the next one first: any list at all (R5, R250). DESIGN CHOICE (log 3). -/
  agenda : List Move
  /-- Selects the next free values of the encoder's registers. DESIGN CHOICE (log 10). -/
  draws : Nat
  deriving DecidableEq, Repr

/-- Why a step stops with a fault. There is no such reason: every case of every step is enabled, held or no move, and none is
undefined (R14). Nobody raises a fault (log 24). -/
inductive Fault where
  deriving DecidableEq, Repr

/-- Why a step is refused. -/
inductive Refusal where
  /-- Raised by an arm of `exec` whose instruction has no meaning yet; safe, since the model then says nothing. No arm raises it. -/
  | notModelled (mnemonic : String)
  deriving DecidableEq, Repr

/-- The encoder's registers after reset. The spec leaves them unspecified (R36); zero is a DESIGN CHOICE (log 9). `sending` is false
because `tx_valid = 0` (R36). -/
def Encoder.afterReset : Encoder := ⟨0, 0, ⟨0, payload0⟩, false⟩

/-- An instance of the given configuration right after hardware reset (R36). -/
def State.resetWith (cfg : Config) : State where
  cfg := cfg
  dstate := .created
  queue := []
  inflight := none
  log := []
  hist := []
  enc := Encoder.afterReset
  resp := none
  werr := false
  agenda := []
  draws := 0

/-- The machine right after reset, with the default configuration (R27, R36). -/
def State.reset : State := State.resetWith Config.default

end Sys2Proof.Machine
end

