-- ==== Sys2Proof/Machine/Ops.lean ====
section
/-! DEFINITION. The named operations over the state: the queue (R60), the wire (R61), the history (R26), the answers of an ENQUEUE
(R182) and the handling of a failed write (R241, R251). -/

namespace Sys2Proof.Machine

/-- Append an event to the history (R26). -/
def record (e : Event) (s : State) : State := { s with hist := s.hist ++ [e] }

/-- `QPush(c)`: at the tail, no entry changed (R60). Used only where there is room and `c` is valid. -/
def qpush (c : Command) (s : State) : State := { s with queue := s.queue ++ [c] }

/-- `QPop()`: the head and the rest, none where the queue is empty (R60). -/
def qpop (s : State) : Option (Command × State) :=
  match s.queue with
  | [] => none
  | c :: q => some (c, { s with queue := q })

/-- `WireWrite(f)`: the whole frame is handed to the sink as one write request (R61). -/
def wireWrite (f : List Byte) (s : State) : State := record (.issued f) s

/-- `Log(WriteError(c))`, with the `werr` strobe (R25, R185). -/
def logWriteError (c : Command) (s : State) : State := { s with log := s.log ++ [⟨c⟩], werr := true }

/-- `hold`: the ENQUEUE is not enabled; nothing happens and nothing is answered (R13, R14). -/
def hold (s : State) : State := { s with resp := none }

/-- A refused ENQUEUE: only the history changes, and the code is answered (R182, R242 to R244). -/
def refuse (c : Command) (code : RefusalCode) (s : State) : State :=
  { record (.refused c code) s with resp := some (.refused code) }

/-- An accepted ENQUEUE: the command, by value, at the tail (R182, R76). -/
def accept (c : Command) (s : State) : State :=
  { record (.accepted c) (qpush c s) with resp := some .accepted }

/-- The queue has no room left; the command in flight does not count (R74). -/
def State.full (s : State) : Bool := s.cfg.qdepth ≤ s.queue.length

/-- ENQUEUE(c) (R182): the checks in the order shown there (R250). -/
def enqueue (c : Command) (s : State) : State :=
  match s.dstate with
  | .created => hold s
  | .draining => refuse c .closed s
  | .stopped => refuse c .closed s
  | .running =>
    if !c.valid then refuse c .badCommand s
    else if !s.full then accept c s
    else match s.cfg.policy with
      | .failFast => refuse c .queueFull s
      | .block => hold s

/-- The end of a drain, part of either COMPLETE step: `Draining -> Stopped` once nothing is queued (R184, R185, R187). -/
def finishDrain (s : State) : State :=
  if s.dstate = .draining ∧ s.queue = [] then record .stopped { s with dstate := .stopped } else s

/-- Taking a `WriteError` (R241, R251): one log entry for the command in flight, the command dropped, never retried, and nothing else
saved or changed. -/
def takeWriteError (c : Command) (s : State) : State :=
  finishDrain (record (.completed .error) { logWriteError c s with inflight := none })

/-- The registers of an encoder that is not in use: free values (R29, R281). DESIGN CHOICE (log 10). -/
def encoderAtRest (n : Nat) : Encoder :=
  ⟨Config.restCrc n, Config.restIdx n, ⟨Config.restOp n, payloadOfLines (Config.restLen n) (Config.restData n)⟩, false⟩

/-- The encoder goes out of use. -/
def restEncoder (s : State) : State := { s with enc := encoderAtRest s.draws, draws := s.draws + 1 }

end Sys2Proof.Machine
end

