-- ==== Sys2Proof/Machine/CommandSet.lean ====
section
/-! DEFINITION. The meaning of each command of the opcode table: it is constructed (R160 to R167) and submitted by ENQUEUE (R182). A held
ENQUEUE is a next state in which nothing has happened (R14). -/

namespace Sys2Proof.Machine

/-- RESET (R166): submit the neutral payload. -/
def execReset (s : State) : Host.Outcome State Fault Refusal := .next (enqueue cmdReset s)

/-- LED (R165): submit `[r, g, b]`. -/
def execLed (r g b : Byte) (s : State) : Host.Outcome State Fault Refusal := .next (enqueue (cmdLed r g b) s)

/-- MOTOR1 (R162): submit `[0, value]`. -/
def execMotor1 (value : Byte) (s : State) : Host.Outcome State Fault Refusal := .next (enqueue (cmdMotor1 value) s)

/-- SERVO (R163): submit `[1, value]`. -/
def execServo (value : Byte) (s : State) : Host.Outcome State Fault Refusal := .next (enqueue (cmdServo value) s)

/-- MOTOR2 (R164): submit `[2, value]`. -/
def execMotor2 (value : Byte) (s : State) : Host.Outcome State Fault Refusal := .next (enqueue (cmdMotor2 value) s)

/-- SETBITSNAP (R161): submit `[channel, value]`, any channel. -/
def execSetbitsnap (channel value : Byte) (s : State) : Host.Outcome State Fault Refusal :=
  .next (enqueue (cmdSetBitsnap channel value) s)

/-- RAW (R167): submit any opcode with any payload; ENQUEUE refuses an opcode of 128 to 255. -/
def execRaw (op : Byte) (payload : Payload) (s : State) : Host.Outcome State Fault Refusal := .next (enqueue (cmdRaw op payload) s)

end Sys2Proof.Machine
end

