-- ==== Sys2Proof/Machine/Dispatch.lean ====
section
/-! DEFINITION. One arm per constructor of Instr, each one call of that instruction's own meaning. -/

namespace Sys2Proof.Machine

/-- The meaning of each instruction. -/
def exec (i : Instr) (s : State) : Host.Outcome State Fault Refusal :=
  match i with
  | .reset => Sys2Proof.Machine.execReset s
  | .led r g b => Sys2Proof.Machine.execLed r g b s
  | .motor1 value => Sys2Proof.Machine.execMotor1 value s
  | .servo value => Sys2Proof.Machine.execServo value s
  | .motor2 value => Sys2Proof.Machine.execMotor2 value s
  | .setbitsnap channel value => Sys2Proof.Machine.execSetbitsnap channel value s
  | .raw op payload => Sys2Proof.Machine.execRaw op payload s

end Sys2Proof.Machine
end

