-- ==== Sys2Proof/Machine/Dispatcher.lean ====
section
/-! DEFINITION. The steps of the host, the consumer and the sink (R180 to R186, R220, R224, R280), and the byte-serial form of DISPATCH
at the wire port (R35, R138). -/

namespace Sys2Proof.Machine

/-- START (R181): the Reset command is queued first. Ignored outside `Created`. -/
def start (s : State) : State :=
  if s.dstate = .created then record .started { qpush cmdReset s with dstate := .running } else s

/-- CLOSE (R186): the input is closed and the queue drained. Ignored in `Draining` and `Stopped`. -/
def close (s : State) : State :=
  match s.dstate with
  | .created => record .stopped (record .closeRequested { s with dstate := .stopped })
  | .running =>
    if s.queue = [] ∧ s.inflight = none then record .stopped { record .closeRequested s with dstate := .stopped }
    else { record .closeRequested s with dstate := .draining }
  | .draining => s
  | .stopped => s

/-- DISPATCH may take the head: the block is at work and no write is outstanding (R180, R183). The queue must also have a head. -/
def State.mayDispatch (s : State) : Bool := (s.dstate = .running ∨ s.dstate = .draining) ∧ s.inflight = none

/-- DISPATCH takes the head, puts it in flight and hands its whole frame to the sink (R183); none where the step is not enabled. -/
def takeHead (s : State) : Option (Command × State) :=
  if s.mayDispatch then (qpop s).map fun (c, t) => (c, wireWrite (encodeCommand c) { t with inflight := some c }) else none

/-- DISPATCH as one atomic step (R183): the encoder runs the whole schedule inside it and is then out of use (R138, R29). Where it is
not enabled nothing happens (R14). -/
def dispatch (s : State) : State :=
  match takeHead s with
  | some (_, t) => restEncoder t
  | none => s

/-- One byte transfer on the wire port (R35, R138). With no frame part way out, the transfer of byte 0 is the DISPATCH step; otherwise
the encoder emits its next byte, and goes out of use after the last. -/
def wireTransfer (s : State) : State :=
  if s.enc.sending then
    if s.enc.last then restEncoder s else { s with enc := s.enc.advance }
  else match takeHead s with
    | some (c, t) => { t with enc := (Encoder.load c).advance }
    | none => s

/-- COMPLETE_OK (R184). Not enabled where no write is outstanding. -/
def completeOk (s : State) : State :=
  match s.inflight with
  | some _ => finishDrain (record (.completed .ok) { s with inflight := none })
  | none => s

/-- COMPLETE_ERR (R185): the handling of the `WriteError`. Not enabled where no write is outstanding. -/
def completeErr (s : State) : State :=
  match s.inflight with
  | some c => takeWriteError c s
  | none => s

/-- RESPOND (R220). An answer with no write outstanding, or before the frame's last byte has been transferred, is no move and is
ignored (R223). -/
def respond (a : Answer) (s : State) : State :=
  if s.enc.sending then s
  else match a with
    | .ok => completeOk s
    | .error => completeErr s

/-- Hardware reset (R280, R282): the reset state, with the configuration untouched. What the agents do next is theirs. -/
def hardwareReset (s : State) : State := { State.resetWith s.cfg with agenda := s.agenda, draws := s.draws }

/-- The bootstrap at its boundary (R224): on success the host issues START; on an error no START is issued and nothing happens. -/
def establish (r : EstablishResult) (s : State) : State :=
  match r with
  | .ready => start s
  | .timeoutError => s
  | .discoveryError => s

/-- The step of an agent other than a producer. -/
def act (a : AgentStep) (s : State) : State :=
  match a with
  | .hardwareReset => hardwareReset s
  | .establish r => establish r s
  | .start => start s
  | .close => close s
  | .statusRead => s
  | .dispatch => dispatch s
  | .wireTransfer => wireTransfer s
  | .respond r => respond r s

/-- What every step begins with: the outputs of the step before are gone, and the move is taken off the agenda. -/
def beginStep (s : State) : State := { s with resp := none, werr := false, agenda := s.agenda.tail }

/-- The fetch: the move that stands next. -/
def nextMove (s : State) : Option Move := s.agenda.head?

/-- Present a command at the command port as the very next move. In `Created` the port takes no command (`cmd_ready = 0`, R36), so the
host's START, which the fetch needs, comes first (log 15). -/
def presentCommand (p : CmdPort) (s : State) : State :=
  let t := start s
  { t with agenda := .command p :: t.agenda }

end Sys2Proof.Machine
end

