-- ==== Sys2Proof/Machine/Step.lean ====
section
/-! DEFINITION. One step of the machine: the move that stands next on the agenda; where none stands there, the consumer's own DISPATCH,
or nothing where that is not enabled (R194, R259; log 6). -/

namespace Sys2Proof.Machine

/-- One atomic step (R65, R180). A command presented at the port is decoded and executed; another agent's step is made. -/
def step (s : State) : Host.Outcome State Fault Refusal :=
  match nextMove s with
  | none => .next (dispatch (beginStep s))
  | some (.command p) => exec (decodePort p) (beginStep s)
  | some (.agent a) => .next (act a (beginStep s))

/-- `s` with the command of the table word `w` presented at the command port as the very next move. A word that stands for no command
cannot be presented and changes nothing. -/
def State.withFetchWord (s : State) (nbits w : Nat) : State :=
  match portOfTableWord nbits w with
  | some p => presentCommand p s
  | none => s

end Sys2Proof.Machine
end

