-- ==== Sys2Proof/Machine/Flags.lean ====
section
/-! DEFINITION. The block has no flags (R30). What stands in their place: the numeric encodings (R24, R27, R248), the status outputs
(R28) and the outputs of the ports (R35), each computed from the state. -/

namespace Sys2Proof.Machine

/-- `dstate` on the status port, 2 bits (R24). -/
def DState.code : DState → BitVec 2
  | .created => 0
  | .running => 1
  | .draining => 2
  | .stopped => 3

/-- `cmd_resp`, 2 bits (R248). -/
def Response.code : Response → BitVec 2
  | .accepted => 0
  | .refused .queueFull => 1
  | .refused .closed => 2
  | .refused .badCommand => 3

/-- `rsp_ok`, 1 bit (R248). -/
def Answer.code : Answer → BitVec 1
  | .ok => 1
  | .error => 0

/-- `BP_POLICY`, 1 bit (R27). -/
def policyCode : BpPolicy → BitVec 1
  | .block => 0
  | .failFast => 1

/-- `qcount = len(st.queue)` (R28). -/
def State.qcount (s : State) : Nat := s.queue.length

/-- `busy = 1` when a write is outstanding (R28). -/
def State.busy (s : State) : Bool := s.inflight.isSome

/-- `werr_count = len(st.log)`, unbounded in the model (R28). -/
def State.werrCount (s : State) : Nat := s.log.length

/-- `werr_count` of an implementation of `w` bits: it saturates at `2^w - 1` (R28). -/
def State.werrCountIn (w : Nat) (s : State) : Nat := min s.werrCount (2 ^ w - 1)

/-- `cmd_ready` for the command that stands on the port: 0 is a held ENQUEUE (R35, R182). -/
def State.cmdReady (c : Command) (s : State) : Bool :=
  match s.dstate with
  | .created => false
  | .draining => true
  | .stopped => true
  | .running => !c.valid || !s.full || s.cfg.policy == .failFast

/-- `cmd_resp`, meaningful after the step of a transfer on the command port (R35). -/
def State.cmdResp (s : State) : Option (BitVec 2) := s.resp.map Response.code

/-- The encoder as the wire port sees it: the one in use, or the one that DISPATCH would load with the head (R35, R138). When a byte is
offered the spec leaves open: R35 gives no condition for `tx_valid` and R194 no bound on DISPATCH. That one is offered in every state
where DISPATCH is enabled, and between all bytes of a frame, is a DESIGN CHOICE (log 26). -/
def State.txEncoder (s : State) : Option Encoder :=
  if s.enc.sending then some s.enc else (takeHead s).map fun (c, _) => Encoder.load c

/-- `tx_valid` (R35): 1 exactly while a byte is offered; when that is, is a DESIGN CHOICE (log 26). -/
def State.txValid (s : State) : Bool := s.txEncoder.isSome

/-- `tx_data` while `tx_valid = 1` (R35, R138). -/
def State.txData (s : State) : Option Byte := s.txEncoder.map Encoder.byte

/-- `tx_last` while `tx_valid = 1` (R35, R138). -/
def State.txLast (s : State) : Option Bool := s.txEncoder.map Encoder.last

end Sys2Proof.Machine
end

