-- ==== Sys2Proof/Safety.lean ====
section
/-! DEFINITION. What a sound run of the block is, in the terms the statements use: the readings of the history (R26), the invariants of
every reachable state (R34), the order of delivery (R69, R70, R188), the discipline of the wire (R71), and the two-run relation of fault
isolation (R189). -/

namespace Sys2Proof.Machine

/-- The commands of the `Accepted` events, in order (R26, R69). -/
def acceptedIn : List Event → List Command
  | [] => []
  | .accepted c :: h => c :: acceptedIn h
  | .started :: h => acceptedIn h
  | .refused _ _ :: h => acceptedIn h
  | .issued _ :: h => acceptedIn h
  | .completed _ :: h => acceptedIn h
  | .closeRequested :: h => acceptedIn h
  | .stopped :: h => acceptedIn h

/-- The frames of the `Issued` events, in order (R26, R70). -/
def issuedIn : List Event → List (List Byte)
  | [] => []
  | .issued f :: h => f :: issuedIn h
  | .started :: h => issuedIn h
  | .accepted _ :: h => issuedIn h
  | .refused _ _ :: h => issuedIn h
  | .completed _ :: h => issuedIn h
  | .closeRequested :: h => issuedIn h
  | .stopped :: h => issuedIn h

/-- The answers of the `Completed` events, in order (R26). -/
def answersIn : List Event → List Answer
  | [] => []
  | .completed a :: h => a :: answersIn h
  | .started :: h => answersIn h
  | .accepted _ :: h => answersIn h
  | .refused _ _ :: h => answersIn h
  | .issued _ :: h => answersIn h
  | .closeRequested :: h => answersIn h
  | .stopped :: h => answersIn h

/-- `Issued` and `Completed` strictly alternate (R71): reads the history with a write outstanding or not, and answers whether one is
outstanding at its end, or none where two of a kind stand next to each other. -/
def wireAlternates : Bool → List Event → Option Bool
  | out, [] => some out
  | out, .issued _ :: h => if out then none else wireAlternates true h
  | out, .completed _ :: h => if out then wireAlternates false h else none
  | out, .started :: h => wireAlternates out h
  | out, .accepted _ :: h => wireAlternates out h
  | out, .refused _ _ :: h => wireAlternates out h
  | out, .closeRequested :: h => wireAlternates out h
  | out, .stopped :: h => wireAlternates out h

/-- The commands in submission order of a run in which START happened: the Reset command first (R69, R188). -/
def submittedIn (h : List Event) : List Command := cmdReset :: acceptedIn h

/-- The invariants I1 to I7 of every reachable state (R34). The length part of I2 holds by type (R105). -/
structure Inv (s : State) : Prop where
  /-- I1. -/
  withinCapacity : s.queue.length ≤ s.cfg.qdepth
  /-- I2, the queue. -/
  queueValid : ∀ c ∈ s.queue, c.valid = true
  /-- I2, the command in flight. -/
  inflightValid : ∀ c, s.inflight = some c → c.valid = true
  /-- I3. -/
  createdEmpty : s.dstate = .created → s.queue = [] ∧ s.inflight = none ∧ s.log = []
  /-- I4. -/
  stoppedEmpty : s.dstate = .stopped → s.queue = [] ∧ s.inflight = none
  /-- I5. -/
  drainingBusy : s.dstate = .draining → s.queue ≠ [] ∨ s.inflight ≠ none
  /-- I6. -/
  writesAnswered : (issuedIn s.hist).length = (answersIn s.hist).length + s.inflight.isSome.toNat
  /-- I7. -/
  failuresLogged : s.log.length = (answersIn s.hist).count .error

/-- Delivery order (R70, R188): what has been issued, followed by what is queued, is the submission order. -/
structure Ordered (s : State) : Prop where
  /-- Nothing has happened in `Created` (R36). -/
  createdFresh : s.dstate = .created → s.hist = [] ∧ s.queue = [] ∧ s.inflight = none
  /-- `Running` and `Draining` are reached through START only (R187). -/
  begun : s.dstate = .running ∨ s.dstate = .draining → Event.started ∈ s.hist
  /-- Without START nothing is ever accepted, queued or issued (R191). -/
  silent : Event.started ∉ s.hist → acceptedIn s.hist = [] ∧ issuedIn s.hist = [] ∧ s.queue = []
  /-- Issued frames, then the frames of the queue, are the frames of the submission order. -/
  inOrder : Event.started ∈ s.hist →
    issuedIn s.hist ++ s.queue.map encodeCommand = (submittedIn s.hist).map encodeCommand

/-- One write outstanding (R71): the history alternates, and ends with a write outstanding exactly when one is in flight. -/
def OneWriteOutstanding (s : State) : Prop := wireAlternates false s.hist = some s.inflight.isSome

/-- While a frame is part way out, the encoder holds the command in flight, stands inside its frame, and has the checksum of the payload
bytes already emitted (R29, R138). -/
def EncoderInFrame (s : State) : Prop :=
  s.enc.sending = true →
    s.inflight = some s.enc.cur ∧ 1 ≤ s.enc.idx.toNat ∧ s.enc.idx.toNat ≤ s.enc.cur.payload.bytes.length + 3 ∧
      s.enc.crc = crc16 (s.enc.cur.payload.bytes.take (s.enc.idx.toNat - 2))

/-- The transition table of `dstate` (R187): where the move that stands next leads. A step not listed leaves `dstate` unchanged or is
not enabled; only hardware reset leaves `Stopped` and enters `Created` (R280). -/
def nextDState (s : State) : DState :=
  match nextMove s with
  | some (.agent .hardwareReset) => .created
  | some (.agent .start) => if s.dstate = .created then .running else s.dstate
  | some (.agent (.establish .ready)) => if s.dstate = .created then .running else s.dstate
  | some (.agent .close) =>
    match s.dstate with
    | .created => .stopped
    | .running => if s.queue = [] ∧ s.inflight = none then .stopped else .draining
    | .draining => .draining
    | .stopped => .stopped
  | some (.agent (.respond _)) =>
    if s.dstate = .draining ∧ s.queue = [] ∧ s.inflight ≠ none ∧ s.enc.sending = false then .stopped else s.dstate
  | _ => s.dstate

/-- A move with the sink's answer hidden (R189). -/
def hideAnswer : Move → Move
  | .agent (.respond _) => .agent (.respond .ok)
  | m => m

/-- An event with the sink's answer hidden (R189). -/
def hideEventAnswer : Event → Event
  | .completed _ => .completed .ok
  | e => e

/-- Two states of runs that differ only in which writes failed (R189): the log and its strobe may differ, and nothing else but the
answers. -/
structure SameButFailures (s t : State) : Prop where
  cfg : s.cfg = t.cfg
  dstate : s.dstate = t.dstate
  queue : s.queue = t.queue
  inflight : s.inflight = t.inflight
  enc : s.enc = t.enc
  resp : s.resp = t.resp
  draws : s.draws = t.draws
  agenda : s.agenda.map hideAnswer = t.agenda.map hideAnswer
  hist : s.hist.map hideEventAnswer = t.hist.map hideEventAnswer

/-- The agenda of a drain: for each answer, DISPATCH and then that answer (R192). -/
def drainAgenda (answers : List Answer) : List Move :=
  answers.flatMap fun a => [.agent .dispatch, .agent (.respond a)]

/-- The agenda of a drain that may begin with a write outstanding: its answer first, then DISPATCH and an answer for each command (R186). -/
def drainFrom : Option Command → List Answer → List Move
  | none, answers => drainAgenda answers
  | some _, a :: answers => .agent (.respond a) :: drainAgenda answers
  | some _, [] => []

/-- The log entries of a drain: the commands whose write was answered with an error, in order (R185). -/
def drainLog : List Command → List Answer → List WriteError
  | c :: cs, .error :: as => ⟨c⟩ :: drainLog cs as
  | _ :: cs, .ok :: as => drainLog cs as
  | _, _ => []

end Sys2Proof.Machine
end

