-- ==== Sys2Proof/Certificates/Slice0/Obligations.lean ====
section
/-! DEFINITION. The statements about the block, each a proposition to be proved. -/

open Sys2Proof Sys2Proof.Machine

/-! ## Words the statements use -/

/-- `n` steps of the machine. -/
def Sys2Proof.Machine.runSteps (n : Nat) (s : State) : Host.Outcome State Fault Refusal := Host.Core.run Sys2Proof.core n s

/-- The polynomial over GF(2) whose coefficient of `x^i` is bit `i` (R132). -/
noncomputable def Sys2Proof.Machine.bitsPoly {n : Nat} (w : BitVec n) : Polynomial (ZMod 2) :=
  ∑ i ∈ Finset.range n, if w.getLsbD i then Polynomial.X ^ i else 0

/-- `M(x)`: the byte sequence as one bit string, each byte most significant bit first, the first bit the highest coefficient (R132). -/
noncomputable def Sys2Proof.Machine.messagePoly : List Byte → Polynomial (ZMod 2)
  | [] => 0
  | b :: bs => bitsPoly b * Polynomial.X ^ (8 * bs.length) + messagePoly bs

/-- `G(x) = x^16 + x^12 + x^5 + 1` (R132). -/
noncomputable def Sys2Proof.Machine.generatorPoly : Polynomial (ZMod 2) :=
  Polynomial.X ^ 16 + Polynomial.X ^ 12 + Polynomial.X ^ 5 + 1

/-- What an ENQUEUE that accepts `c` leaves: the command at the tail, its event, its answer, and nothing else. -/
def Sys2Proof.Machine.acceptedState (c : Command) (s : State) : State :=
  { s with queue := s.queue ++ [c], hist := s.hist ++ [.accepted c], resp := some .accepted }

/-- What a refused ENQUEUE leaves: the event, the answer, and nothing else. -/
def Sys2Proof.Machine.refusedState (c : Command) (code : RefusalCode) (s : State) : State :=
  { s with hist := s.hist ++ [.refused c code], resp := some (.refused code) }

/-- `s` with the move that stood next taken off the agenda, `rest` remaining, and the outputs of the step before cleared. -/
def Sys2Proof.Machine.movedOn (rest : List Move) (s : State) : State := { s with resp := none, werr := false, agenda := rest }

/-- An instance right after reset, and what the agents will do with it. -/
def Sys2Proof.Machine.resetFacing (cfg : Config) (moves : List Move) : State := { State.resetWith cfg with agenda := moves }

/-! ## The Frame Codec -/

/-- R137: a valid command's frame has `len + 4` bytes, the opcode doubled, the length, the payload unchanged, and the checksum of the
payload alone, high byte first. -/
def Obligations.EncodeLaysOutTheFrame : Prop :=
  ∀ c : Command, c.op.toNat ≤ 127 →
    (encodeCommand c).length = c.payload.bytes.length + 4 ∧
    (∃ h, (encodeCommand c)[0]? = some h ∧ h = c.op <<< 1 ∧ h.toNat = 2 * c.op.toNat ∧ h.getLsbD 0 = false) ∧
    (∃ n, (encodeCommand c)[1]? = some n ∧ n.toNat = c.payload.bytes.length) ∧
    (∀ k, k < c.payload.bytes.length → (encodeCommand c)[k + 2]? = c.payload.bytes[k]?) ∧
    (∃ hi lo, (encodeCommand c)[c.payload.bytes.length + 2]? = some hi ∧ (encodeCommand c)[c.payload.bytes.length + 3]? = some lo ∧
      hi.toNat * 256 + lo.toNat = (crc16 c.payload.bytes).toNat)

/-- R136: with equal payloads two frames agree everywhere but in byte 0, and there they differ where the opcodes do. -/
def Obligations.ChecksumIgnoresTheHeader : Prop :=
  ∀ (a b : Byte) (p : Payload), a.toNat ≤ 127 → b.toNat ≤ 127 →
    (∀ k, k ≠ 0 → (encodeCommand ⟨a, p⟩)[k]? = (encodeCommand ⟨b, p⟩)[k]?) ∧
    ((encodeCommand ⟨a, p⟩)[0]? = (encodeCommand ⟨b, p⟩)[0]? ↔ a = b)

/-- R133: the table-driven checksum, with the table the inner loop defines, is the bit-serial one on every byte sequence. -/
def Obligations.TableDrivenChecksumAgrees : Prop :=
  (∀ i : Byte, crcTableEntry i = crcFrom 0 [i]) ∧ ∀ bytes : List Byte, crc16ByTable bytes = crc16 bytes

/-- R132: the checksum is the remainder of the message polynomial, shifted and with the initial value folded in, modulo the generator. -/
def Obligations.ChecksumIsPolynomialRemainder : Prop :=
  ∀ bytes : List Byte,
    bitsPoly (crc16 bytes) =
      (messagePoly bytes * Polynomial.X ^ 16 + bitsPoly (0xFFFF : Word16) * Polynomial.X ^ (8 * bytes.length)) %ₘ generatorPoly

/-- R141: the checksum over a sequence and its own checksum, high byte first, is zero. -/
def Obligations.ResidueIsZero : Prop :=
  ∀ p : List Byte, crc16 (p ++ [hi8 (crc16 p), lo8 (crc16 p)]) = 0

/-- R108: which byte sequences are well-formed frames, what each decodes to, and that no two valid commands share a frame. -/
def Obligations.WellFormedFramesDecode : Prop :=
  (∀ f : List Byte,
    (∃ i, decodeFrame f = .ok i) ↔
      4 ≤ f.length ∧ f.length = 4 + (f.getD 1 0).toNat ∧ (f.getD 0 0).getLsbD 0 = false ∧
        (f.getD (f.length - 2) 0).toNat * 256 + (f.getD (f.length - 1) 0).toNat = (crc16 ((f.drop 2).take (f.length - 4))).toNat) ∧
  (∀ (f : List Byte) (i : Instr), decodeFrame f = .ok i →
    i.command.op = f.getD 0 0 >>> 1 ∧ i.command.payload.bytes = (f.drop 2).take (f.length - 4)) ∧
  (∀ c d : Command, c.valid = true → d.valid = true → encodeCommand c = encodeCommand d → c = d)

/-- The frame of every well-formed instruction decodes to the spelling of highest priority of the same command, which for a canonical
instruction is the instruction itself; and a frame that decodes is the frame of what it decodes to. -/
def Obligations.DecodeInvertsEncode : Prop :=
  (∀ i : Instr, i.wellFormed = true → i.canonical = true → decodeFrame (encode i) = .ok i) ∧
  (∀ i : Instr, i.wellFormed = true → ∃ j, decodeFrame (encode i) = .ok j ∧ j.canonical = true ∧ j.command = i.command) ∧
  (∀ (f : List Byte) (i : Instr), decodeFrame f = .ok i → i.wellFormed = true ∧ i.canonical = true ∧ encode i = f)

/-- The command port: a canonical instruction presented there is decoded to itself, whatever stands on the data lines past its length;
every presentation is decoded to an instruction that constructs the command presented. -/
def Obligations.PortDecodeInvertsPresentation : Prop :=
  (∀ (i : Instr) (past : List Byte), i.canonical = true →
    decodePort { encodePort i with data := (encodePort i).data ++ past } = i) ∧
  (∀ p : CmdPort, (decodePort p).canonical = true ∧ (decodePort p).command.op = p.op ∧
    (decodePort p).command.payload.bytes.length = p.len.toNat ∧
    ∀ k, k < p.len.toNat → (decodePort p).command.payload.bytes[k]? = some (p.data.getD k 0))

/-- Frames written out from the opcode table's encodings decode to the instruction they stand for, and each of R108's conditions refuses
by its name. -/
def Obligations.WrittenOutFramesDecode : Prop :=
  decodeFrame [0x1C, 0x03, 0x7F, 0x7F, 0x7F, 0xAF, 0xBA] = .ok .reset ∧
  decodeFrame [0x12, 0x03, 0x12, 0x34, 0x56, 0x12, 0xFD] = .ok (.led 0x12 0x34 0x56) ∧
  decodeFrame [0x14, 0x02, 0x00, 0xC0, 0xC4, 0x43] = .ok (.motor1 0xC0) ∧
  decodeFrame [0x14, 0x02, 0x01, 0x7F, 0xA1, 0x46] = .ok (.servo 0x7F) ∧
  decodeFrame [0x14, 0x02, 0x02, 0xC0, 0xA2, 0x21] = .ok (.motor2 0xC0) ∧
  decodeFrame [0x14, 0x02, 0x03, 0x55, 0x42, 0x0C] = .ok (.setbitsnap 0x03 0x55) ∧
  decodeFrame [0xFE, 0x00, 0xFF, 0xFF] = .ok (.raw 0x7F payload0) ∧
  decodeFrame [0x14, 0x02] = .error .tooShort ∧
  decodeFrame [0x14, 0x03, 0x02, 0xC0, 0xA2, 0x21] = .error .lengthMismatch ∧
  decodeFrame [0x15, 0x02, 0x02, 0xC0, 0xA2, 0x21] = .error .reservedBit ∧
  decodeFrame [0x14, 0x02, 0x02, 0xC1, 0xA2, 0x21] = .error .badChecksum

/-- R138: loaded with a command, the byte-serial encoder emits exactly its frame, and marks the last byte and no other. -/
def Obligations.SerialEncoderEmitsTheFrame : Prop :=
  ∀ c : Command,
    serialFrame c = encodeCommand c ∧
    ∀ k, k ≤ c.payload.bytes.length + 3 →
      ((Encoder.advance^[k] (Encoder.load c)).last = true ↔ k = c.payload.bytes.length + 3)

/-! ## The commands -/

/-- R161 to R164 give the command and its frame, R182 the acceptance; that executing an instruction is ENQUEUE of its command is DEDUCED
(log 2): SETBITSNAP and its aliases. With the block running and room in the queue each is accepted: its command stands at the
tail, nothing else changes, and the frame it will be written as is the rule's pattern. -/
def Obligations.SetBitsnapFamilyIsAccepted : Prop :=
  ∀ (ch v : Byte) (s : State), s.dstate = .running → s.queue.length < s.cfg.qdepth →
    ∃ c, c.op = 0x0A ∧ c.payload.bytes = [ch, v] ∧
      encodeCommand c = [0x14, 0x02, ch, v, hi8 (crc16 [ch, v]), lo8 (crc16 [ch, v])] ∧
      exec (.setbitsnap ch v) s = .next (acceptedState c s) ∧
      (ch = 0 → exec (.motor1 v) s = .next (acceptedState c s)) ∧
      (ch = 1 → exec (.servo v) s = .next (acceptedState c s)) ∧
      (ch = 2 → exec (.motor2 v) s = .next (acceptedState c s))

/-- LED: R165 gives the command and its frame, R182 the acceptance; that executing it is ENQUEUE is DEDUCED (log 2). -/
def Obligations.LedIsAccepted : Prop :=
  ∀ (r g b : Byte) (s : State), s.dstate = .running → s.queue.length < s.cfg.qdepth →
    ∃ c, c.op = 0x09 ∧ c.payload.bytes = [r, g, b] ∧
      encodeCommand c = [0x12, 0x03, r, g, b, hi8 (crc16 [r, g, b]), lo8 (crc16 [r, g, b])] ∧
      exec (.led r g b) s = .next (acceptedState c s)

/-- RESET, the command: R166 gives the command and its frame, R182 the acceptance; that executing it is ENQUEUE is DEDUCED (log 2). -/
def Obligations.ResetCommandIsAccepted : Prop :=
  ∀ s : State, s.dstate = .running → s.queue.length < s.cfg.qdepth →
    ∃ c, c.op = 0x0E ∧ c.payload.bytes = [0x7F, 0x7F, 0x7F] ∧
      encodeCommand c = [0x1C, 0x03, 0x7F, 0x7F, 0x7F, 0xAF, 0xBA] ∧
      exec .reset s = .next (acceptedState c s)

/-- RAW with any opcode of 0 to 127 and any payload of 0 to 255 bytes: R167, R102 and R103 give the command, R182 the acceptance; that
executing it is ENQUEUE is DEDUCED (log 2). -/
def Obligations.RawIsAccepted : Prop :=
  ∀ (op : Byte) (p : Payload) (s : State), s.dstate = .running → s.queue.length < s.cfg.qdepth → op.toNat ≤ 127 →
    exec (.raw op p) s = .next (acceptedState ⟨op, p⟩ s)

/-- R182: ENQUEUE of each instruction's command, in every case of the rule: held in `Created`; `Closed` in `Draining` and `Stopped`,
whatever the command; in `Running` `BadCommand` for an opcode over 127, even on a full queue; accepted with room; and on a full queue
`QueueFull` or held, by the policy. A refusal changes nothing but the history. -/
def Obligations.EnqueueFollowsEveryCase : Prop :=
  ∀ (i : Instr) (s : State),
    (s.dstate = .created → exec i s = .next { s with resp := none }) ∧
    (s.dstate = .draining ∨ s.dstate = .stopped → exec i s = .next (refusedState i.command .closed s)) ∧
    (s.dstate = .running → 128 ≤ i.command.op.toNat → exec i s = .next (refusedState i.command .badCommand s)) ∧
    (s.dstate = .running → i.command.op.toNat < 128 → s.queue.length < s.cfg.qdepth →
      exec i s = .next (acceptedState i.command s)) ∧
    (s.dstate = .running → i.command.op.toNat < 128 → s.cfg.qdepth ≤ s.queue.length → s.cfg.policy = .failFast →
      exec i s = .next (refusedState i.command .queueFull s)) ∧
    (s.dstate = .running → i.command.op.toNat < 128 → s.cfg.qdepth ≤ s.queue.length → s.cfg.policy = .block →
      exec i s = .next { s with resp := none })

/-- The block cannot tell how a command was constructed (R167): instructions that construct one command have one effect; in particular
the aliases and the fitting RAW forms. -/
def Obligations.SpellingsAreIndistinguishable : Prop :=
  (∀ (i j : Instr) (s : State), i.command = j.command → exec i s = exec j s) ∧
  (∀ v, (Instr.motor1 v).command = (Instr.setbitsnap 0 v).command ∧ (Instr.servo v).command = (Instr.setbitsnap 1 v).command ∧
    (Instr.motor2 v).command = (Instr.setbitsnap 2 v).command) ∧
  (∀ ch v p, p.bytes = [ch, v] → (Instr.raw 0x0A p).command = (Instr.setbitsnap ch v).command) ∧
  (∀ r g b p, p.bytes = [r, g, b] → (Instr.raw 0x09 p).command = (Instr.led r g b).command) ∧
  (∀ p, p.bytes = [0x7F, 0x7F, 0x7F] → (Instr.raw 0x0E p).command = Instr.reset.command)

/-- The frame of every instruction: it always answers a next state, in which only the queue, the history and the answer may differ, the
queue by nothing or by the instruction's command at its tail, the history by nothing or by one event about that command. -/
def Obligations.CommandsChangeOnlyQueueHistoryAndAnswer : Prop :=
  ∀ (i : Instr) (s : State), ∃ t, exec i s = .next t ∧
    t = { s with queue := t.queue, hist := t.hist, resp := t.resp } ∧
    ((t.queue = s.queue ++ [i.command] ∧ t.hist = s.hist ++ [.accepted i.command] ∧ t.resp = some .accepted) ∨
      (t.queue = s.queue ∧ ∃ code, t.hist = s.hist ++ [.refused i.command code] ∧ t.resp = some (.refused code)) ∨
      (t.queue = s.queue ∧ t.hist = s.hist ∧ t.resp = none))

/-- The command port (R35): `cmd_ready` is 1 exactly when the ENQUEUE is answered, and `cmd_resp` then carries the code of R248. -/
def Obligations.CommandPortHandshake : Prop :=
  ∀ (i : Instr) (s : State), ∃ t, exec i s = .next t ∧
    (s.cmdReady i.command = true ↔ t.cmdResp ≠ none) ∧
    (s.cmdReady i.command = false ↔
      s.dstate = .created ∨
        (s.dstate = .running ∧ s.cfg.policy = .block ∧ s.cfg.qdepth ≤ s.queue.length ∧ i.command.op.toNat ≤ 127)) ∧
    (t.cmdResp = some 0 ↔ t.queue = s.queue ++ [i.command]) ∧
    (t.cmdResp = some 2 ↔ s.dstate = .draining ∨ s.dstate = .stopped) ∧
    (t.cmdResp = some 3 ↔ s.dstate = .running ∧ 128 ≤ i.command.op.toNat)

/-! ## One step -/

/-- A step runs the instruction presented at the command port: the outputs of the step before are cleared, the move is taken off the
agenda, and the instruction is executed there. -/
def Obligations.StepRunsThePresentedCommand : Prop :=
  ∀ (p : CmdPort) (i : Instr) (rest : List Move) (s : State), s.agenda = .command p :: rest → decodePort p = i →
    step s = exec i (movedOn rest s)

/-- A table word placed for the fetch is what the next step runs, after the START that `Created` needs. -/
def Obligations.FetchedTableWordRuns : Prop :=
  ∀ (nbits w : Nat) (i : Instr) (s : State), decodeTableWord nbits w = some i →
    step (s.withFetchWord nbits w) = exec i { start s with resp := none, werr := false }

/-- R181: START queues the Reset command and enters `Running`; in any other state it changes nothing. -/
def Obligations.StartQueuesTheResetCommand : Prop :=
  ∀ (s : State) (rest : List Move), s.agenda = .agent .start :: rest →
    (s.dstate = .created → ∃ c, c.op = 0x0E ∧ c.payload.bytes = [0x7F, 0x7F, 0x7F] ∧
      step s = .next { movedOn rest s with dstate := .running, queue := s.queue ++ [c], hist := s.hist ++ [.started] }) ∧
    (s.dstate ≠ .created → step s = .next (movedOn rest s))

/-- R183: DISPATCH takes the head, puts it in flight and issues its frame; everything but the encoder's registers is as the rule says.
It is not enabled in `Created` or `Stopped`, with a write outstanding, or with an empty queue: then nothing changes. -/
def Obligations.DispatchIssuesTheHead : Prop :=
  ∀ (s : State) (rest : List Move), s.agenda = .agent .dispatch :: rest →
    (∀ c q, s.dstate = .running ∨ s.dstate = .draining → s.inflight = none → s.queue = c :: q →
      ∃ t, step s = .next t ∧ t.enc.sending = false ∧
        t = { movedOn rest s with queue := q, inflight := some c, hist := s.hist ++ [.issued (encodeCommand c)], enc := t.enc, draws := t.draws }) ∧
    (s.dstate = .created ∨ s.dstate = .stopped ∨ s.inflight ≠ none ∨ s.queue = [] →
      step s = .next (movedOn rest s))

/-- With nothing on the agenda the consumer goes on by itself: DISPATCH where it is enabled, and otherwise the block is idle and keeps
its state. That it dispatches at once is the model's choice within R194 (log 6). -/
def Obligations.ConsumerGoesOnAlone : Prop :=
  ∀ s : State, s.agenda = [] →
    (∀ c q, s.dstate = .running ∨ s.dstate = .draining → s.inflight = none → s.queue = c :: q →
      ∃ t, step s = .next t ∧ t.enc.sending = false ∧
        t = { movedOn [] s with queue := q, inflight := some c, hist := s.hist ++ [.issued (encodeCommand c)], enc := t.enc, draws := t.draws }) ∧
    (s.dstate = .created ∨ s.dstate = .stopped ∨ s.inflight ≠ none ∨ s.queue = [] →
      step s = .next (movedOn [] s))

/-- R184: COMPLETE_OK. The write outstanding is answered; with a drain finished the block stops. `sending` is false whenever whole frames
are handed over (R138); an answer to a frame part way out is the sink's no move (R223). -/
def Obligations.CompleteOkEndsTheWrite : Prop :=
  ∀ (s : State) (rest : List Move) (c : Command), s.agenda = .agent (.respond .ok) :: rest → s.enc.sending = false →
    s.inflight = some c →
    (s.dstate = .draining ∧ s.queue = [] →
      step s = .next { movedOn rest s with inflight := none, dstate := .stopped, hist := s.hist ++ [.completed .ok, .stopped] }) ∧
    (¬(s.dstate = .draining ∧ s.queue = []) →
      step s = .next { movedOn rest s with inflight := none, hist := s.hist ++ [.completed .ok] })

/-- R185, R251: COMPLETE_ERR, the whole handling of a `WriteError`: one log entry for the command in flight, the strobe, the command
dropped and not queued again; with a drain finished the block stops. -/
def Obligations.CompleteErrLogsAndDrops : Prop :=
  ∀ (s : State) (rest : List Move) (c : Command), s.agenda = .agent (.respond .error) :: rest → s.enc.sending = false →
    s.inflight = some c →
    (s.dstate = .draining ∧ s.queue = [] →
      step s = .next { movedOn rest s with inflight := none, dstate := .stopped, log := s.log ++ [⟨c⟩], hist := s.hist ++ [.completed .error, .stopped], werr := true }) ∧
    (¬(s.dstate = .draining ∧ s.queue = []) →
      step s = .next { movedOn rest s with inflight := none, log := s.log ++ [⟨c⟩], hist := s.hist ++ [.completed .error], werr := true })

/-- R223: an answer with no write outstanding, or while a frame is part way out of the wire port, is ignored. -/
def Obligations.StrayAnswersAreIgnored : Prop :=
  ∀ (s : State) (rest : List Move) (a : Answer), s.agenda = .agent (.respond a) :: rest →
    s.inflight = none ∨ s.enc.sending = true → step s = .next (movedOn rest s)

/-- R186: CLOSE, in each state. It removes no queued command and cancels no write. -/
def Obligations.CloseDrains : Prop :=
  ∀ (s : State) (rest : List Move), s.agenda = .agent .close :: rest →
    (s.dstate = .created →
      step s = .next { movedOn rest s with dstate := .stopped, hist := s.hist ++ [.closeRequested, .stopped] }) ∧
    (s.dstate = .running ∧ s.queue = [] ∧ s.inflight = none →
      step s = .next { movedOn rest s with dstate := .stopped, hist := s.hist ++ [.closeRequested, .stopped] }) ∧
    (s.dstate = .running ∧ (s.queue ≠ [] ∨ s.inflight ≠ none) →
      step s = .next { movedOn rest s with dstate := .draining, hist := s.hist ++ [.closeRequested] }) ∧
    (s.dstate = .draining ∨ s.dstate = .stopped → step s = .next (movedOn rest s))

/-- R36, R280: hardware reset leaves `Created`, an empty queue, nothing in flight, an empty log and history, and every output inactive;
the configuration is unchanged. -/
def Obligations.HardwareResetCreatesTheInstance : Prop :=
  ∀ (s : State) (rest : List Move), s.agenda = .agent .hardwareReset :: rest →
    ∃ t, step s = .next t ∧ t.dstate = .created ∧ t.queue = [] ∧ t.inflight = none ∧ t.log = [] ∧ t.hist = [] ∧ t.cfg = s.cfg ∧
      t.dstate.code = 0 ∧ t.qcount = 0 ∧ t.busy = false ∧ t.werrCount = 0 ∧ t.werr = false ∧
      (∀ c, t.cmdReady c = false) ∧ t.txValid = false

/-- R224, R245, R246: a failed bootstrap changes nothing, and a successful one is START. Reading the status changes nothing (R227). -/
def Obligations.BootstrapAtItsBoundary : Prop :=
  ∀ (s : State) (rest : List Move),
    (s.agenda = .agent (.establish .timeoutError) :: rest ∨ s.agenda = .agent (.establish .discoveryError) :: rest ∨
        s.agenda = .agent .statusRead :: rest →
      step s = .next (movedOn rest s)) ∧
    (s.agenda = .agent (.establish .ready) :: rest → step s = step { s with agenda := .agent .start :: rest })

/-- R187: `dstate` after a step is what the transition table says, for every state and every move; and `Stopped` is terminal: from it
only hardware reset changes `dstate`, `queue`, `inflight` or `log`. -/
def Obligations.TransitionsFollowTheTable : Prop :=
  (∀ s t : State, step s = .next t → t.dstate = nextDState s) ∧
  (∀ s t : State, Inv s → s.dstate = .stopped → nextMove s ≠ some (.agent .hardwareReset) → step s = .next t →
    t.dstate = .stopped ∧ t.queue = s.queue ∧ t.inflight = s.inflight ∧ t.log = s.log)

/-- R196: in `Stopped` nothing is queued or outstanding, every frame issued has been answered, and whatever steps follow, short of a
hardware reset, no frame is issued and no failure logged any more. -/
def Obligations.StoppedIsTheEnd : Prop :=
  ∀ s : State, Inv s → s.dstate = .stopped →
    s.queue = [] ∧ s.inflight = none ∧ (issuedIn s.hist).length = (answersIn s.hist).length ∧
    ∀ (n : Nat) (t : State), Move.agent .hardwareReset ∉ s.agenda → runSteps n s = .next t →
      t.dstate = .stopped ∧ t.log = s.log ∧ issuedIn t.hist = issuedIn s.hist ∧ acceptedIn t.hist = acceptedIn s.hist

/-- No step writes the configuration (R27), and every step answers a next state. The second is the model's choice: a held ENQUEUE and an
answer that is no move take a next state in which nothing has happened, and nothing faults (logs 4, 5, 24, all DEDUCED). -/
def Obligations.EveryStepAnswersAndKeepsTheConfiguration : Prop :=
  ∀ s : State, ∃ t, step s = .next t ∧ t.cfg = s.cfg

/-! ## Invariants -/

/-- R34: every step keeps the invariants I1 to I7. -/
def Obligations.StepKeepsTheInvariants : Prop :=
  ∀ s t : State, Inv s → step s = .next t → Inv t

/-- R70, R188: every step keeps the order of delivery. -/
def Obligations.StepKeepsDeliveryOrder : Prop :=
  ∀ s t : State, Ordered s → step s = .next t → Ordered t

/-- R71: every step keeps the alternation of writes and answers. -/
def Obligations.StepKeepsOneWriteOutstanding : Prop :=
  ∀ s t : State, OneWriteOutstanding s → step s = .next t → OneWriteOutstanding t

/-- R29, R138: every step keeps the encoder inside its frame, with the checksum of the bytes already emitted. -/
def Obligations.StepKeepsEncoderInFrame : Prop :=
  ∀ s t : State, EncoderInFrame s → step s = .next t → EncoderInFrame t

/-- R36: an instance of any configuration meets every invariant right after reset. -/
def Obligations.ResetMeetsEveryInvariant : Prop :=
  ∀ cfg : Config, Inv (State.resetWith cfg) ∧ Ordered (State.resetWith cfg) ∧ OneWriteOutstanding (State.resetWith cfg) ∧
    EncoderInFrame (State.resetWith cfg)

/-! ## What the invariants say -/

/-- R34, R71, R188 (that a hardware reset among the moves begins a new history is the model's choice, log 17): whatever the agents do after
reset, in any order and with any answers, the invariants hold, writes and answers
alternate, the frames issued are the encodings of the Reset command and the accepted commands in order, and the configuration stands. -/
def Obligations.EveryRunFromResetIsSound : Prop :=
  ∀ (cfg : Config) (moves : List Move) (n : Nat) (t : State),
    runSteps n (resetFacing cfg moves) = .next t →
      Inv t ∧ OneWriteOutstanding t ∧ t.cfg = cfg ∧
        issuedIn t.hist = ((submittedIn t.hist).take (issuedIn t.hist).length).map encodeCommand

/-- R188: the issued frames are the encodings of the Reset command and the accepted commands, in order, cut off at the number of writes
issued so far. -/
def Obligations.IssuedIsAPrefixOfSubmission : Prop :=
  ∀ s : State, Ordered s →
    issuedIn s.hist = ((submittedIn s.hist).take (issuedIn s.hist).length).map encodeCommand

/-- R191: the first frame ever issued is the Reset frame, and after a CLOSE in `Created` no frame is ever issued. -/
def Obligations.ResetFrameComesFirst : Prop :=
  (∀ (s : State) (f : List Byte), Ordered s → (issuedIn s.hist).head? = some f → f = [0x1C, 0x03, 0x7F, 0x7F, 0x7F, 0xAF, 0xBA]) ∧
  (∀ (n : Nat) (s t : State), Ordered s → s.dstate = .created → nextMove s = some (.agent .close) →
    Move.agent .hardwareReset ∉ s.agenda → runSteps n s = .next t → issuedIn t.hist = [])

/-- R192, R190, R196: in `Stopped`, reached with START, the frame of the Reset command and of every accepted command has been issued,
once and in order, and every write has been answered. -/
def Obligations.StoppedMeansAllDelivered : Prop :=
  ∀ s : State, Inv s → Ordered s → s.dstate = .stopped → Event.started ∈ s.hist →
    issuedIn s.hist = (submittedIn s.hist).map encodeCommand ∧ (answersIn s.hist).length = (submittedIn s.hist).length ∧
      s.log.length = (answersIn s.hist).count .error

/-! ## Runs -/

/-- R192, R186: a drain, with a write outstanding at its beginning or not, one answer for that write and one DISPATCH and one answer for
each command queued, whatever the answers, ends in `Stopped`, with every queued command's frame issued in order, every answer recorded
and exactly the failed commands logged. The first part begins in `Draining`, the second with the CLOSE in `Running`. -/
def Obligations.DrainReachesStopped : Prop :=
  (∀ (s : State) (answers : List Answer), s.dstate = .draining → s.enc.sending = false → answers ≠ [] →
    answers.length = (s.inflight.toList ++ s.queue).length → s.agenda = drainFrom s.inflight answers →
    ∃ t, runSteps s.agenda.length s = .next t ∧ t.dstate = .stopped ∧ t.queue = [] ∧ t.inflight = none ∧
      issuedIn t.hist = issuedIn s.hist ++ s.queue.map encodeCommand ∧ answersIn t.hist = answersIn s.hist ++ answers ∧
      t.log = s.log ++ drainLog (s.inflight.toList ++ s.queue) answers) ∧
  (∀ (s : State) (answers : List Answer), s.dstate = .running → s.enc.sending = false →
    answers.length = (s.inflight.toList ++ s.queue).length → s.agenda = .agent .close :: drainFrom s.inflight answers →
    ∃ t, runSteps s.agenda.length s = .next t ∧ t.dstate = .stopped ∧ t.queue = [] ∧ t.inflight = none ∧
      issuedIn t.hist = issuedIn s.hist ++ s.queue.map encodeCommand ∧ answersIn t.hist = answersIn s.hist ++ answers ∧
      t.log = s.log ++ drainLog (s.inflight.toList ++ s.queue) answers)

/-- R189: two runs that differ only in which writes fail issue the same frames and stay alike in everything but the log. -/
def Obligations.FailuresDoNotChangeTheWire : Prop :=
  ∀ (n : Nat) (s t s' : State), SameButFailures s t → runSteps n s = .next s' →
    ∃ t', runSteps n t = .next t' ∧ SameButFailures s' t' ∧ issuedIn s'.hist = issuedIn t'.hist

/-- R138: from a state where DISPATCH is enabled, `N + 4` transfers on the wire port present exactly the bytes of the head's frame, the
last one marked, and leave what the one step DISPATCH leaves, but for the encoder's registers. That each of these
states offers its byte at once (`tx_valid` is 1 there) is the model's choice (log 26). -/
def Obligations.WireTransfersRefineDispatch : Prop :=
  ∀ (s : State) (c : Command) (q : List Command), s.dstate = .running ∨ s.dstate = .draining → s.inflight = none →
    s.enc.sending = false → s.queue = c :: q →
    s.agenda = List.replicate (c.payload.bytes.length + 4) (.agent .wireTransfer) →
    (∀ k, k < c.payload.bytes.length + 4 → ∃ t, runSteps k s = .next t ∧ t.txData = (encodeCommand c)[k]? ∧
      t.txLast = some (k == c.payload.bytes.length + 3)) ∧
    ∃ t, runSteps (c.payload.bytes.length + 4) s = .next t ∧ t.enc.sending = false ∧
      t = { movedOn [] s with queue := q, inflight := some c, hist := s.hist ++ [.issued (encodeCommand c)], enc := t.enc, draws := t.draws }

/-- R222: while the sink does not answer, and there is no hardware reset, nothing more is issued, `Stopped` is not reached and every queued
command stays where it is, however long the run. -/
def Obligations.HungWriteStallsTheBlock : Prop :=
  ∀ (n : Nat) (s t : State) (c : Command), Inv s → s.inflight = some c →
    (∀ a, Move.agent (.respond a) ∉ s.agenda) → Move.agent .hardwareReset ∉ s.agenda → runSteps n s = .next t →
    t.inflight = some c ∧ t.dstate ≠ .stopped ∧ issuedIn t.hist = issuedIn s.hist ∧ ∃ more, t.queue = s.queue ++ more

/-- R74: the place of a command is free as soon as DISPATCH has taken it, before its write is answered: a full queue takes one more
command after a DISPATCH, and the block then holds `QDEPTH + 1`. -/
def Obligations.DispatchFreesAPlace : Prop :=
  ∀ (s : State) (i : Instr) (p : CmdPort), s.dstate = .running → s.inflight = none → s.queue.length = s.cfg.qdepth →
    decodePort p = i → i.wellFormed = true → s.agenda = [.agent .dispatch, .command p] →
    ∃ t, runSteps 2 s = .next t ∧ t.resp = some .accepted ∧ t.queue.length = s.cfg.qdepth ∧ t.inflight = s.queue.head? ∧
      t.inflight ≠ none ∧ t.queue.getLast? = some i.command

/-- R195: under `Block` a valid ENQUEUE on a full queue is held; after a CLOSE the same ENQUEUE answers `Closed` and its command is never
queued. -/
def Obligations.HeldProducerIsReleasedByClose : Prop :=
  ∀ (s : State) (i : Instr) (p : CmdPort) (rest : List Move), s.dstate = .running → s.cfg.policy = .block →
    s.queue.length = s.cfg.qdepth → decodePort p = i → i.wellFormed = true →
    s.agenda = .command p :: .agent .close :: .command p :: rest →
    runSteps 1 s = .next (movedOn (.agent .close :: .command p :: rest) s) ∧
    ∃ t, runSteps 3 s = .next t ∧ t.resp = some (.refused .closed) ∧ t.queue = s.queue ∧ t.dstate = .draining ∧ t.agenda = rest

/-! ## The wire port, move by move -/

/-- R35, R138: what one byte transfer does. Before the last byte the encoder alone moves on: payload bytes, and only they, pass through the
checksum. With the last byte it goes out of use. With no frame part way out the transfer is DISPATCH with its first byte, and where DISPATCH
is not enabled it is nothing. -/
def Obligations.EachWireTransferMovesOneByte : Prop :=
  ∀ (s : State) (rest : List Move), s.agenda = .agent .wireTransfer :: rest →
    (s.enc.sending = true → s.enc.idx.toNat ≠ s.enc.cur.payload.bytes.length + 3 →
      ∃ e, step s = .next { movedOn rest s with enc := e } ∧ e.sending = true ∧ e.cur = s.enc.cur ∧ e.idx = s.enc.idx + 1 ∧
        e.crc = if 2 ≤ s.enc.idx.toNat ∧ s.enc.idx.toNat ≤ s.enc.cur.payload.bytes.length + 1
          then crcFrom s.enc.crc [s.enc.cur.payload.bytes.getD (s.enc.idx.toNat - 2) 0] else s.enc.crc) ∧
    (s.enc.sending = true → s.enc.idx.toNat = s.enc.cur.payload.bytes.length + 3 →
      ∃ t, step s = .next t ∧ t.enc.sending = false ∧ t = { movedOn rest s with enc := t.enc, draws := t.draws }) ∧
    (∀ c q, s.enc.sending = false → s.dstate = .running ∨ s.dstate = .draining → s.inflight = none → s.queue = c :: q →
      ∃ e, e.sending = true ∧ e.cur = c ∧ e.idx = 1 ∧ e.crc = 0xFFFF ∧
        step s = .next { movedOn rest s with queue := q, inflight := some c, hist := s.hist ++ [.issued (encodeCommand c)], enc := e }) ∧
    (s.enc.sending = false → s.dstate = .created ∨ s.dstate = .stopped ∨ s.inflight ≠ none ∨ s.queue = [] →
      step s = .next (movedOn rest s))

/-- R138, R139: whatever other agents do between the transfers of a frame, short of a hardware reset, the wire port presents the frame of
the command in flight byte after byte: after `n` steps with fewer transfers among them than bytes were left, the byte presented is the next
one of that frame, marked where it is the last, and no other frame has been issued. That the byte is offered
in every such state is the model's choice (log 26). -/
def Obligations.OtherMovesDoNotDisturbTheFrame : Prop :=
  ∀ (n : Nat) (s t : State), EncoderInFrame s → s.enc.sending = true → Move.agent .hardwareReset ∉ s.agenda →
    s.enc.idx.toNat + (s.agenda.take n).count (.agent .wireTransfer) ≤ s.enc.cur.payload.bytes.length + 3 →
    runSteps n s = .next t →
    t.inflight = s.inflight ∧ issuedIn t.hist = issuedIn s.hist ∧ t.log = s.log ∧
      t.txData = (encodeCommand s.enc.cur)[s.enc.idx.toNat + (s.agenda.take n).count (.agent .wireTransfer)]? ∧
      t.txLast = some (s.enc.idx.toNat + (s.agenda.take n).count (.agent .wireTransfer) == s.enc.cur.payload.bytes.length + 3)

/-! ## Codes and status outputs -/

/-- R24, R27, R248: the numeric codes on the ports. -/
def Obligations.CodesAreTheSpecs : Prop :=
  (DState.code .created = 0 ∧ DState.code .running = 1 ∧ DState.code .draining = 2 ∧ DState.code .stopped = 3) ∧
  (policyCode .block = 0 ∧ policyCode .failFast = 1) ∧
  (Response.code .accepted = 0 ∧ Response.code (.refused .queueFull) = 1 ∧ Response.code (.refused .closed) = 2 ∧
    Response.code (.refused .badCommand) = 3) ∧
  (Answer.code .ok = 1 ∧ Answer.code .error = 0)

/-- R28: the status outputs reflect the current state: `qcount` is the length of the queue and stays within `QDEPTH`, `busy` is 1 exactly
when a write is outstanding, and `werr_count` is the number of failures; in `w` bits it is exact below saturation, saturates at `2^w - 1`,
and for one bit or more is zero exactly when no write has failed. -/
def Obligations.StatusOutputsReflectTheState : Prop :=
  ∀ s : State, Inv s →
    (s.qcount = s.queue.length ∧ s.qcount ≤ s.cfg.qdepth) ∧
    (s.busy = true ↔ ∃ c, s.inflight = some c) ∧
    s.werrCount = (answersIn s.hist).count .error ∧
    (∀ w, (s.werrCount < 2 ^ w → s.werrCountIn w = s.werrCount) ∧ (2 ^ w ≤ s.werrCount → s.werrCountIn w = 2 ^ w - 1) ∧
      (1 ≤ w → (s.werrCountIn w = 0 ↔ s.log = [])))

/-- R28, R35, R185: short of a hardware reset, a step raises `werr` exactly at COMPLETE_ERR and then adds one entry to the log, and otherwise
leaves the log; `qcount` goes up by one at an accepted ENQUEUE and at START in `Created`, and otherwise goes down by the frames issued. -/
def Obligations.StatusOutputsFollowTheSteps : Prop :=
  ∀ s t : State, nextMove s ≠ some (.agent .hardwareReset) → step s = .next t →
    (t.werr = true ↔ ∃ c, s.inflight = some c ∧ nextMove s = some (.agent (.respond .error)) ∧ s.enc.sending = false) ∧
    (t.werr = true → t.werrCount = s.werrCount + 1) ∧ (t.werr = false → t.log = s.log) ∧
    (t.resp = some .accepted ∨ s.dstate = .created ∧ t.dstate = .running →
      t.qcount = s.qcount + 1 ∧ issuedIn t.hist = issuedIn s.hist) ∧
    (¬(t.resp = some .accepted ∨ s.dstate = .created ∧ t.dstate = .running) →
      t.qcount + (issuedIn t.hist).length = s.qcount + (issuedIn s.hist).length)

/-! ## The table's words -/

/-- What the decoder reads from a table word, bit by bit (the layout is the model's choice, log 14): a word with bit 8 set stands for no
command; in every other, bits 15 to 9 are the opcode, bits 7 to 0 the length, and payload byte `k` stands in the word numbered `k/2 + 1`, in
the high half for an even `k` and in the low half for an odd one or where it is the last byte of the row and alone in its word. -/
def Obligations.TableWordsReadTheirFields : Prop :=
  ∀ nbits w : Nat, 16 ≤ nbits → w < 2 ^ nbits →
    (w.testBit 8 = true → decodeTableWord nbits w = none) ∧
    (w.testBit 8 = false → ∃ i, decodeTableWord nbits w = some i ∧ i.canonical = true ∧ i.command.op.toNat = w / 2 ^ 9 % 2 ^ 7 ∧
      i.command.payload.bytes.length = w % 2 ^ 8 ∧
      ∀ k, k < w % 2 ^ 8 →
        (k % 2 = 0 ∧ nbits / 8 ≠ k + 3 →
          (i.command.payload.bytes[k]?).map (fun b => b.toNat) = some (w / 2 ^ (16 * (k / 2 + 1) + 8) % 2 ^ 8)) ∧
        (k % 2 = 1 ∨ nbits / 8 = k + 3 →
          (i.command.payload.bytes[k]?).map (fun b => b.toNat) = some (w / 2 ^ (16 * (k / 2 + 1)) % 2 ^ 8)))

/-- Every well-formed instruction's frame, numbered as a table row numbers it, is read back: as the instruction itself where it is
canonical, and always as the canonical spelling of the same command (logs 14, 20). -/
def Obligations.TableWordsInvertEncode : Prop :=
  (∀ i : Instr, i.wellFormed = true → i.canonical = true →
    decodeTableWord (8 * (encode i).length) (tableWord (encode i)) = some i) ∧
  (∀ i : Instr, i.wellFormed = true →
    ∃ j, decodeTableWord (8 * (encode i).length) (tableWord (encode i)) = some j ∧ j.canonical = true ∧ j.command = i.command)
end

