-- ==== Sys2Proof/Laws/Codec.lean ====
section
/-! SUPPORT. Laws of the codec's operations and of the decoder's parts. -/

namespace Sys2Proof.Machine

@[simp] theorem crcShift_zero : crcShift 0 = 0 := by decide

@[simp] theorem crcFrom_nil (crc : Word16) : crcFrom crc [] = crc := rfl

@[simp] theorem crcFrom_cons (crc : Word16) (b : Byte) (bs : List Byte) : crcFrom crc (b :: bs) = crcFrom (crcByte crc b) bs := rfl

/-- The checksum of a sequence is taken up where that of its front part ends (R131). -/
theorem crcFrom_append (crc : Word16) (as bs : List Byte) : crcFrom crc (as ++ bs) = crcFrom (crcFrom crc as) bs :=
  List.foldl_append

/-- Bit `i` of a word is a bit of one of its two bytes (R12). -/
theorem getLsbD_hi8_lo8 (w : Word16) (i : Nat) (hi : i < 16) :
    w.getLsbD i = if i < 8 then (lo8 w).getLsbD i else (hi8 w).getLsbD (i - 8) := by
  by_cases h : i < 8
  · simp [lo8, h]
  · have h8 : i - 8 < 8 := by omega
    have : 8 + (i - 8) = i := by omega
    simp [hi8, h, h8, this]

/-- The two bytes of a word determine it (R12). -/
theorem hi8_lo8_inj {v w : Word16} (h : hi8 v = hi8 w) (l : lo8 v = lo8 w) : v = w := by
  apply BitVec.eq_of_getLsbD_eq
  intro i hi
  rw [getLsbD_hi8_lo8 v i hi, getLsbD_hi8_lo8 w i hi, h, l]

/-- The header's shift loses no bit of a legal opcode (R93, R134). -/
theorem headerByte_shift_back {op : Byte} (h : op.toNat ≤ 127) : headerByte op >>> 1 = op := by
  apply BitVec.eq_of_toNat_eq
  simp only [headerByte, BitVec.toNat_ushiftRight, BitVec.toNat_shiftLeft, Nat.shiftLeft_eq, Nat.shiftRight_eq_div_pow]
  omega

/-- Header bit 0 is always written as 0 (R101). -/
theorem headerByte_bit0 (op : Byte) : (headerByte op).getLsbD 0 = false := by
  simp [headerByte]

/-- The length byte counts the payload (R94, R134). -/
@[simp] theorem lengthByte_toNat (p : Payload) : (lengthByte p).toNat = p.bytes.length := by
  have := p.bound
  simp only [lengthByte, BitVec.toNat_ofNat]
  omega

/-- Two payloads of equal bytes are equal. -/
theorem Payload.eq_of_bytes {p q : Payload} (h : p.bytes = q.bytes) : p = q := by
  cases p; cases q; simp_all

/-- The data lines of a payload, cut at its length, are the payload (R35). -/
theorem payloadOfLines_lengthByte (p : Payload) : payloadOfLines (lengthByte p) p.bytes = p := by
  apply Payload.eq_of_bytes
  apply List.ext_getElem
  · simp [payloadOfLines]
  · intro i h₁ h₂
    simp [payloadOfLines, dataByte, h₂]

/-- The decoder's reading of a command constructs that command again, whichever spelling it chose (R167). -/
theorem decodeCommand_command (c : Command) : (decodeCommand c).command = c := by
  obtain ⟨op, bytes, hb⟩ := c
  unfold decodeCommand
  split
  · rename_i a b h
    simp only at h
    subst h
    split <;> [skip; rfl]
    rename_i h; simp only at h; subst h
    split <;> [(rename_i h; subst h; rfl); skip]
    split <;> [(rename_i h; subst h; rfl); skip]
    split <;> [(rename_i h; subst h; rfl); rfl]
  · rename_i r g b h
    simp only at h
    subst h
    split <;> [(rename_i h; simp only at h; subst h; rfl); skip]
    split <;> [skip; rfl]
    rename_i h
    obtain ⟨h, rfl, rfl, rfl⟩ := h
    simp only at h
    subst h
    rfl
  · rfl

/-- The number of a row has no bits beyond its bytes (log 14). -/
theorem tableWord_lt : ∀ f : List Byte, tableWord f < 2 ^ (8 * f.length)
  | [] => by simp [tableWord]
  | [b] => by have := b.isLt; simpa [tableWord] using this
  | a :: b :: rest => by
    have := tableWord_lt rest
    have ha := a.isLt
    have hb := b.isLt
    simp only [tableWord, List.length_cons]
    rw [show 8 * (rest.length + 1 + 1) = 8 * rest.length + 16 by ring, pow_add]
    omega

end Sys2Proof.Machine
end

