-- ==== Sys2Proof/Laws/History.lean ====
section
/-! SUPPORT. The readings of the history, each over two parts of it one after the other. -/

namespace Sys2Proof.Machine

@[simp] theorem acceptedIn_append (h k : List Event) : acceptedIn (h ++ k) = acceptedIn h ++ acceptedIn k := by
  induction h with
  | nil => rfl
  | cons e h ih => cases e <;> simp [acceptedIn, ih]

@[simp] theorem issuedIn_append (h k : List Event) : issuedIn (h ++ k) = issuedIn h ++ issuedIn k := by
  induction h with
  | nil => rfl
  | cons e h ih => cases e <;> simp [issuedIn, ih]

@[simp] theorem answersIn_append (h k : List Event) : answersIn (h ++ k) = answersIn h ++ answersIn k := by
  induction h with
  | nil => rfl
  | cons e h ih => cases e <;> simp [answersIn, ih]

theorem wireAlternates_append (out : Bool) (h k : List Event) :
    wireAlternates out (h ++ k) = (wireAlternates out h).bind fun o => wireAlternates o k := by
  induction h generalizing out with
  | nil => rfl
  | cons e h ih => cases e <;> cases out <;> simp [wireAlternates, ih]

/-- Which frames were issued does not depend on the answers (R189). -/
theorem issuedIn_hideEventAnswer (h : List Event) : issuedIn (h.map hideEventAnswer) = issuedIn h := by
  induction h with
  | nil => rfl
  | cons e h ih => cases e <;> simp [issuedIn, hideEventAnswer, ih]

end Sys2Proof.Machine
end

