-- ==== Sys2Proof/Laws/State.lean ====
section
/-! SUPPORT. What each update of the state leaves in each field: true by unfolding the update once. -/

namespace Sys2Proof.Machine

@[simp] theorem record_cfg (e : Event) (s : State) : (record e s).cfg = s.cfg := rfl
@[simp] theorem record_dstate (e : Event) (s : State) : (record e s).dstate = s.dstate := rfl
@[simp] theorem record_queue (e : Event) (s : State) : (record e s).queue = s.queue := rfl
@[simp] theorem record_inflight (e : Event) (s : State) : (record e s).inflight = s.inflight := rfl
@[simp] theorem record_log (e : Event) (s : State) : (record e s).log = s.log := rfl
@[simp] theorem record_hist (e : Event) (s : State) : (record e s).hist = s.hist ++ [e] := rfl
@[simp] theorem record_enc (e : Event) (s : State) : (record e s).enc = s.enc := rfl
@[simp] theorem record_resp (e : Event) (s : State) : (record e s).resp = s.resp := rfl
@[simp] theorem record_werr (e : Event) (s : State) : (record e s).werr = s.werr := rfl
@[simp] theorem record_agenda (e : Event) (s : State) : (record e s).agenda = s.agenda := rfl
@[simp] theorem record_draws (e : Event) (s : State) : (record e s).draws = s.draws := rfl

@[simp] theorem qpush_cfg (c : Command) (s : State) : (qpush c s).cfg = s.cfg := rfl
@[simp] theorem qpush_dstate (c : Command) (s : State) : (qpush c s).dstate = s.dstate := rfl
@[simp] theorem qpush_queue (c : Command) (s : State) : (qpush c s).queue = s.queue ++ [c] := rfl
@[simp] theorem qpush_inflight (c : Command) (s : State) : (qpush c s).inflight = s.inflight := rfl
@[simp] theorem qpush_log (c : Command) (s : State) : (qpush c s).log = s.log := rfl
@[simp] theorem qpush_hist (c : Command) (s : State) : (qpush c s).hist = s.hist := rfl
@[simp] theorem qpush_enc (c : Command) (s : State) : (qpush c s).enc = s.enc := rfl
@[simp] theorem qpush_resp (c : Command) (s : State) : (qpush c s).resp = s.resp := rfl
@[simp] theorem qpush_werr (c : Command) (s : State) : (qpush c s).werr = s.werr := rfl
@[simp] theorem qpush_agenda (c : Command) (s : State) : (qpush c s).agenda = s.agenda := rfl
@[simp] theorem qpush_draws (c : Command) (s : State) : (qpush c s).draws = s.draws := rfl

@[simp] theorem wireWrite_cfg (f : List Byte) (s : State) : (wireWrite f s).cfg = s.cfg := rfl
@[simp] theorem wireWrite_dstate (f : List Byte) (s : State) : (wireWrite f s).dstate = s.dstate := rfl
@[simp] theorem wireWrite_queue (f : List Byte) (s : State) : (wireWrite f s).queue = s.queue := rfl
@[simp] theorem wireWrite_inflight (f : List Byte) (s : State) : (wireWrite f s).inflight = s.inflight := rfl
@[simp] theorem wireWrite_log (f : List Byte) (s : State) : (wireWrite f s).log = s.log := rfl
@[simp] theorem wireWrite_hist (f : List Byte) (s : State) : (wireWrite f s).hist = s.hist ++ [.issued f] := rfl
@[simp] theorem wireWrite_enc (f : List Byte) (s : State) : (wireWrite f s).enc = s.enc := rfl
@[simp] theorem wireWrite_resp (f : List Byte) (s : State) : (wireWrite f s).resp = s.resp := rfl
@[simp] theorem wireWrite_werr (f : List Byte) (s : State) : (wireWrite f s).werr = s.werr := rfl
@[simp] theorem wireWrite_agenda (f : List Byte) (s : State) : (wireWrite f s).agenda = s.agenda := rfl
@[simp] theorem wireWrite_draws (f : List Byte) (s : State) : (wireWrite f s).draws = s.draws := rfl

@[simp] theorem logWriteError_cfg (c : Command) (s : State) : (logWriteError c s).cfg = s.cfg := rfl
@[simp] theorem logWriteError_dstate (c : Command) (s : State) : (logWriteError c s).dstate = s.dstate := rfl
@[simp] theorem logWriteError_queue (c : Command) (s : State) : (logWriteError c s).queue = s.queue := rfl
@[simp] theorem logWriteError_inflight (c : Command) (s : State) : (logWriteError c s).inflight = s.inflight := rfl
@[simp] theorem logWriteError_log (c : Command) (s : State) : (logWriteError c s).log = s.log ++ [⟨c⟩] := rfl
@[simp] theorem logWriteError_hist (c : Command) (s : State) : (logWriteError c s).hist = s.hist := rfl
@[simp] theorem logWriteError_enc (c : Command) (s : State) : (logWriteError c s).enc = s.enc := rfl
@[simp] theorem logWriteError_resp (c : Command) (s : State) : (logWriteError c s).resp = s.resp := rfl
@[simp] theorem logWriteError_werr (c : Command) (s : State) : (logWriteError c s).werr = true := rfl
@[simp] theorem logWriteError_agenda (c : Command) (s : State) : (logWriteError c s).agenda = s.agenda := rfl
@[simp] theorem logWriteError_draws (c : Command) (s : State) : (logWriteError c s).draws = s.draws := rfl

@[simp] theorem hold_cfg (s : State) : (hold s).cfg = s.cfg := rfl
@[simp] theorem hold_dstate (s : State) : (hold s).dstate = s.dstate := rfl
@[simp] theorem hold_queue (s : State) : (hold s).queue = s.queue := rfl
@[simp] theorem hold_inflight (s : State) : (hold s).inflight = s.inflight := rfl
@[simp] theorem hold_log (s : State) : (hold s).log = s.log := rfl
@[simp] theorem hold_hist (s : State) : (hold s).hist = s.hist := rfl
@[simp] theorem hold_enc (s : State) : (hold s).enc = s.enc := rfl
@[simp] theorem hold_resp (s : State) : (hold s).resp = none := rfl
@[simp] theorem hold_werr (s : State) : (hold s).werr = s.werr := rfl
@[simp] theorem hold_agenda (s : State) : (hold s).agenda = s.agenda := rfl
@[simp] theorem hold_draws (s : State) : (hold s).draws = s.draws := rfl

@[simp] theorem refuse_cfg (c : Command) (code : RefusalCode) (s : State) : (refuse c code s).cfg = s.cfg := rfl
@[simp] theorem refuse_dstate (c : Command) (code : RefusalCode) (s : State) : (refuse c code s).dstate = s.dstate := rfl
@[simp] theorem refuse_queue (c : Command) (code : RefusalCode) (s : State) : (refuse c code s).queue = s.queue := rfl
@[simp] theorem refuse_inflight (c : Command) (code : RefusalCode) (s : State) : (refuse c code s).inflight = s.inflight := rfl
@[simp] theorem refuse_log (c : Command) (code : RefusalCode) (s : State) : (refuse c code s).log = s.log := rfl
@[simp] theorem refuse_hist (c : Command) (code : RefusalCode) (s : State) : (refuse c code s).hist = s.hist ++ [.refused c code] := rfl
@[simp] theorem refuse_enc (c : Command) (code : RefusalCode) (s : State) : (refuse c code s).enc = s.enc := rfl
@[simp] theorem refuse_resp (c : Command) (code : RefusalCode) (s : State) : (refuse c code s).resp = some (.refused code) := rfl
@[simp] theorem refuse_werr (c : Command) (code : RefusalCode) (s : State) : (refuse c code s).werr = s.werr := rfl
@[simp] theorem refuse_agenda (c : Command) (code : RefusalCode) (s : State) : (refuse c code s).agenda = s.agenda := rfl
@[simp] theorem refuse_draws (c : Command) (code : RefusalCode) (s : State) : (refuse c code s).draws = s.draws := rfl

@[simp] theorem accept_cfg (c : Command) (s : State) : (accept c s).cfg = s.cfg := rfl
@[simp] theorem accept_dstate (c : Command) (s : State) : (accept c s).dstate = s.dstate := rfl
@[simp] theorem accept_queue (c : Command) (s : State) : (accept c s).queue = s.queue ++ [c] := rfl
@[simp] theorem accept_inflight (c : Command) (s : State) : (accept c s).inflight = s.inflight := rfl
@[simp] theorem accept_log (c : Command) (s : State) : (accept c s).log = s.log := rfl
@[simp] theorem accept_hist (c : Command) (s : State) : (accept c s).hist = s.hist ++ [.accepted c] := rfl
@[simp] theorem accept_enc (c : Command) (s : State) : (accept c s).enc = s.enc := rfl
@[simp] theorem accept_resp (c : Command) (s : State) : (accept c s).resp = some .accepted := rfl
@[simp] theorem accept_werr (c : Command) (s : State) : (accept c s).werr = s.werr := rfl
@[simp] theorem accept_agenda (c : Command) (s : State) : (accept c s).agenda = s.agenda := rfl
@[simp] theorem accept_draws (c : Command) (s : State) : (accept c s).draws = s.draws := rfl

@[simp] theorem restEncoder_cfg (s : State) : (restEncoder s).cfg = s.cfg := rfl
@[simp] theorem restEncoder_dstate (s : State) : (restEncoder s).dstate = s.dstate := rfl
@[simp] theorem restEncoder_queue (s : State) : (restEncoder s).queue = s.queue := rfl
@[simp] theorem restEncoder_inflight (s : State) : (restEncoder s).inflight = s.inflight := rfl
@[simp] theorem restEncoder_log (s : State) : (restEncoder s).log = s.log := rfl
@[simp] theorem restEncoder_hist (s : State) : (restEncoder s).hist = s.hist := rfl
@[simp] theorem restEncoder_enc (s : State) : (restEncoder s).enc = encoderAtRest s.draws := rfl
@[simp] theorem restEncoder_resp (s : State) : (restEncoder s).resp = s.resp := rfl
@[simp] theorem restEncoder_werr (s : State) : (restEncoder s).werr = s.werr := rfl
@[simp] theorem restEncoder_agenda (s : State) : (restEncoder s).agenda = s.agenda := rfl
@[simp] theorem restEncoder_draws (s : State) : (restEncoder s).draws = s.draws + 1 := rfl

@[simp] theorem beginStep_cfg (s : State) : (beginStep s).cfg = s.cfg := rfl
@[simp] theorem beginStep_dstate (s : State) : (beginStep s).dstate = s.dstate := rfl
@[simp] theorem beginStep_queue (s : State) : (beginStep s).queue = s.queue := rfl
@[simp] theorem beginStep_inflight (s : State) : (beginStep s).inflight = s.inflight := rfl
@[simp] theorem beginStep_log (s : State) : (beginStep s).log = s.log := rfl
@[simp] theorem beginStep_hist (s : State) : (beginStep s).hist = s.hist := rfl
@[simp] theorem beginStep_enc (s : State) : (beginStep s).enc = s.enc := rfl
@[simp] theorem beginStep_resp (s : State) : (beginStep s).resp = none := rfl
@[simp] theorem beginStep_werr (s : State) : (beginStep s).werr = false := rfl
@[simp] theorem beginStep_agenda (s : State) : (beginStep s).agenda = s.agenda.tail := rfl
@[simp] theorem beginStep_draws (s : State) : (beginStep s).draws = s.draws := rfl

@[simp] theorem hardwareReset_cfg (s : State) : (hardwareReset s).cfg = s.cfg := rfl
@[simp] theorem hardwareReset_dstate (s : State) : (hardwareReset s).dstate = .created := rfl
@[simp] theorem hardwareReset_queue (s : State) : (hardwareReset s).queue = [] := rfl
@[simp] theorem hardwareReset_inflight (s : State) : (hardwareReset s).inflight = none := rfl
@[simp] theorem hardwareReset_log (s : State) : (hardwareReset s).log = [] := rfl
@[simp] theorem hardwareReset_hist (s : State) : (hardwareReset s).hist = [] := rfl
@[simp] theorem hardwareReset_enc (s : State) : (hardwareReset s).enc = Encoder.afterReset := rfl
@[simp] theorem hardwareReset_resp (s : State) : (hardwareReset s).resp = none := rfl
@[simp] theorem hardwareReset_werr (s : State) : (hardwareReset s).werr = false := rfl
@[simp] theorem hardwareReset_agenda (s : State) : (hardwareReset s).agenda = s.agenda := rfl
@[simp] theorem hardwareReset_draws (s : State) : (hardwareReset s).draws = s.draws := rfl

end Sys2Proof.Machine
end

