-- ==== Sys2Proof/Laws/Ops.lean ====
section
/-! SUPPORT. One law for each shared operation, saying once everything it can do. -/

namespace Sys2Proof.Machine

/-- Every instruction is ENQUEUE of the command it constructs (R160, R182). -/
theorem exec_eq_enqueue (i : Instr) (s : State) : exec i s = .next (enqueue i.command s) := by
  cases i <;> rfl

/-- What ENQUEUE can do (R182): hold, refuse with one of the three codes, or accept. -/
theorem enqueue_cases (c : Command) (s : State) :
    (s.dstate = .created ∧ enqueue c s = hold s) ∨
    ((s.dstate = .draining ∨ s.dstate = .stopped) ∧ enqueue c s = refuse c .closed s) ∨
    (s.dstate = .running ∧ c.valid = false ∧ enqueue c s = refuse c .badCommand s) ∨
    (s.dstate = .running ∧ c.valid = true ∧ s.full = false ∧ enqueue c s = accept c s) ∨
    (s.dstate = .running ∧ c.valid = true ∧ s.full = true ∧ s.cfg.policy = .failFast ∧ enqueue c s = refuse c .queueFull s) ∨
    (s.dstate = .running ∧ c.valid = true ∧ s.full = true ∧ s.cfg.policy = .block ∧ enqueue c s = hold s) := by
  unfold enqueue
  cases hd : s.dstate <;> cases hv : c.valid <;> cases hf : s.full <;> cases hp : s.cfg.policy <;> simp

/-- What the end of a COMPLETE step can do (R184, R185). -/
theorem finishDrain_cases (s : State) :
    (s.dstate = .draining ∧ s.queue = [] ∧ finishDrain s = record .stopped { s with dstate := .stopped }) ∨
    (¬(s.dstate = .draining ∧ s.queue = []) ∧ finishDrain s = s) := by
  by_cases h : s.dstate = .draining ∧ s.queue = []
  · exact .inl ⟨h.1, h.2, if_pos h⟩
  · exact .inr ⟨h, if_neg h⟩

@[simp] theorem finishDrain_cfg (s : State) : (finishDrain s).cfg = s.cfg := by unfold finishDrain; split <;> rfl
@[simp] theorem finishDrain_inflight (s : State) : (finishDrain s).inflight = s.inflight := by unfold finishDrain; split <;> rfl
@[simp] theorem finishDrain_queue (s : State) : (finishDrain s).queue = s.queue := by unfold finishDrain; split <;> rfl
@[simp] theorem finishDrain_log (s : State) : (finishDrain s).log = s.log := by unfold finishDrain; split <;> rfl
@[simp] theorem finishDrain_enc (s : State) : (finishDrain s).enc = s.enc := by unfold finishDrain; split <;> rfl
@[simp] theorem finishDrain_resp (s : State) : (finishDrain s).resp = s.resp := by unfold finishDrain; split <;> rfl
@[simp] theorem finishDrain_werr (s : State) : (finishDrain s).werr = s.werr := by unfold finishDrain; split <;> rfl
@[simp] theorem finishDrain_agenda (s : State) : (finishDrain s).agenda = s.agenda := by unfold finishDrain; split <;> rfl
@[simp] theorem finishDrain_draws (s : State) : (finishDrain s).draws = s.draws := by unfold finishDrain; split <;> rfl

@[simp] theorem finishDrain_dstate (s : State) :
    (finishDrain s).dstate = if s.dstate = .draining ∧ s.queue = [] then .stopped else s.dstate := by
  unfold finishDrain; split <;> rfl

@[simp] theorem finishDrain_hist (s : State) :
    (finishDrain s).hist = if s.dstate = .draining ∧ s.queue = [] then s.hist ++ [.stopped] else s.hist := by
  unfold finishDrain; split <;> rfl

/-- What DISPATCH takes, and when (R183). -/
theorem takeHead_eq_some {s t : State} {c : Command} (h : takeHead s = some (c, t)) :
    (s.dstate = .running ∨ s.dstate = .draining) ∧ s.inflight = none ∧
      ∃ q, s.queue = c :: q ∧ t = { s with queue := q, inflight := some c, hist := s.hist ++ [.issued (encodeCommand c)] } := by
  unfold takeHead qpop at h
  split at h
  · rename_i hm
    cases hq : s.queue with
    | nil => simp [hq] at h
    | cons d q =>
      simp only [hq, Option.map_some, Option.some.injEq, Prod.mk.injEq] at h
      obtain ⟨rfl, rfl⟩ := h
      simp only [State.mayDispatch, decide_eq_true_eq] at hm
      exact ⟨hm.1, hm.2, q, rfl, rfl⟩
  · cases h

/-- When DISPATCH is enabled (R183). -/
theorem takeHead_of_enabled {s : State} {c : Command} {q : List Command} (hd : s.dstate = .running ∨ s.dstate = .draining)
    (hi : s.inflight = none) (hq : s.queue = c :: q) :
    takeHead s = some (c, { s with queue := q, inflight := some c, hist := s.hist ++ [.issued (encodeCommand c)] }) := by
  unfold takeHead qpop
  rw [if_pos (by simpa [State.mayDispatch] using ⟨hd, hi⟩)]
  simp only [hq, Option.map_some]
  rfl

/-- When DISPATCH is not enabled (R183). -/
theorem takeHead_of_not_enabled {s : State}
    (h : s.dstate = .created ∨ s.dstate = .stopped ∨ s.inflight ≠ none ∨ s.queue = []) : takeHead s = none := by
  cases ht : takeHead s with
  | none => rfl
  | some p =>
    obtain ⟨hd, hi, q, hq, -⟩ := takeHead_eq_some (s := s) (t := p.2) (c := p.1) ht
    rcases h with h | h | h | h <;> simp_all

/-- What DISPATCH can do (R183). -/
theorem dispatch_cases (s : State) :
    (takeHead s = none ∧ dispatch s = s) ∨ (∃ c t, takeHead s = some (c, t) ∧ dispatch s = restEncoder t) := by
  unfold dispatch
  cases h : takeHead s with
  | none => exact .inl ⟨rfl, rfl⟩
  | some p => exact .inr ⟨p.1, p.2, rfl, rfl⟩

/-- What a byte transfer on the wire port can do (R35, R138). -/
theorem wireTransfer_cases (s : State) :
    (s.enc.sending = true ∧ s.enc.last = true ∧ wireTransfer s = restEncoder s) ∨
    (s.enc.sending = true ∧ s.enc.last = false ∧ wireTransfer s = { s with enc := s.enc.advance }) ∨
    (s.enc.sending = false ∧ takeHead s = none ∧ wireTransfer s = s) ∨
    (s.enc.sending = false ∧ ∃ c t, takeHead s = some (c, t) ∧ wireTransfer s = { t with enc := (Encoder.load c).advance }) := by
  unfold wireTransfer
  cases hs : s.enc.sending <;> cases hl : s.enc.last <;> cases ht : takeHead s <;> simp
  all_goals exact ⟨_, _, rfl, by simp⟩

/-- What RESPOND can do (R220, R223). -/
theorem respond_cases (a : Answer) (s : State) :
    ((s.enc.sending = true ∨ s.inflight = none) ∧ respond a s = s) ∨
    (s.enc.sending = false ∧ a = .ok ∧ ∃ c, s.inflight = some c ∧
      respond a s = finishDrain (record (.completed .ok) { s with inflight := none })) ∨
    (s.enc.sending = false ∧ a = .error ∧ ∃ c, s.inflight = some c ∧ respond a s = takeWriteError c s) := by
  unfold respond completeOk completeErr
  cases hs : s.enc.sending <;> cases a <;> cases hi : s.inflight <;> simp

/-- What START can do (R181). -/
theorem start_cases (s : State) :
    (s.dstate = .created ∧ start s = record .started { qpush cmdReset s with dstate := .running }) ∨
    (s.dstate ≠ .created ∧ start s = s) := by
  by_cases h : s.dstate = .created
  · exact .inl ⟨h, if_pos h⟩
  · exact .inr ⟨h, if_neg h⟩

/-- What CLOSE can do (R186). -/
theorem close_cases (s : State) :
    (s.dstate = .created ∧ close s = record .stopped (record .closeRequested { s with dstate := .stopped })) ∨
    (s.dstate = .running ∧ s.queue = [] ∧ s.inflight = none ∧
      close s = record .stopped { record .closeRequested s with dstate := .stopped }) ∨
    (s.dstate = .running ∧ (s.queue ≠ [] ∨ s.inflight ≠ none) ∧ close s = { record .closeRequested s with dstate := .draining }) ∨
    ((s.dstate = .draining ∨ s.dstate = .stopped) ∧ close s = s) := by
  unfold close
  cases hd : s.dstate with
  | created => exact .inl ⟨rfl, rfl⟩
  | running =>
    by_cases h : s.queue = [] ∧ s.inflight = none
    · exact .inr (.inl ⟨rfl, h.1, h.2, if_pos h⟩)
    · exact .inr (.inr (.inl ⟨rfl, by tauto, if_neg h⟩))
  | draining => exact .inr (.inr (.inr ⟨.inl rfl, rfl⟩))
  | stopped => exact .inr (.inr (.inr ⟨.inr rfl, rfl⟩))

/-- What any step of an agent other than a producer is (R180, R227). -/
theorem act_cases (a : AgentStep) (s : State) :
    act a s = s ∨ (a = .hardwareReset ∧ act a s = hardwareReset s) ∨ act a s = start s ∨ act a s = close s ∨ act a s = dispatch s ∨
      act a s = wireTransfer s ∨ ∃ r, a = .respond r ∧ act a s = respond r s := by
  cases a with
  | establish r => cases r <;> simp [act, establish]
  | respond r => exact .inr (.inr (.inr (.inr (.inr (.inr ⟨r, rfl, rfl⟩)))))
  | _ => simp [act]

/-- Whatever move stands next, or none, a step answers a next state: no step faults and none is refused (R14). -/
theorem step_answers_next (s : State) :
    (nextMove s = none ∧ step s = .next (dispatch (beginStep s))) ∨
    (∃ p, nextMove s = some (.command p) ∧ step s = .next (enqueue (decodePort p).command (beginStep s))) ∨
    (∃ a, nextMove s = some (.agent a) ∧ step s = .next (act a (beginStep s))) := by
  unfold step
  match h : nextMove s with
  | none => exact .inl ⟨rfl, rfl⟩
  | some (.command p) => exact .inr (.inl ⟨p, rfl, exec_eq_enqueue _ _⟩)
  | some (.agent a) => exact .inr (.inr ⟨a, rfl, rfl⟩)

/-- A property that every operation keeps is kept by every step, whatever move stands next. -/
theorem step_keeps {P : State → Prop}
    (begins : ∀ s, P s → P (beginStep s)) (enqueues : ∀ c s, P s → P (enqueue c s)) (resets : ∀ s, P s → P (hardwareReset s))
    (starts : ∀ s, P s → P (start s)) (closes : ∀ s, P s → P (close s)) (dispatches : ∀ s, P s → P (dispatch s))
    (transfers : ∀ s, P s → P (wireTransfer s)) (responds : ∀ r s, P s → P (respond r s))
    {s t : State} (hs : P s) (h : step s = .next t) : P t := by
  have hb := begins s hs
  rcases step_answers_next s with ⟨-, e⟩ | ⟨p, -, e⟩ | ⟨a, -, e⟩ <;> rw [e] at h <;> cases h
  · exact dispatches _ hb
  · exact enqueues _ _ hb
  · rcases act_cases a (beginStep s) with e | ⟨-, e⟩ | e | e | e | e | ⟨r, -, e⟩ <;> rw [e]
    · exact hb
    · exact resets _ hb
    · exact starts _ hb
    · exact closes _ hb
    · exact dispatches _ hb
    · exact transfers _ hb
    · exact responds _ _ hb

end Sys2Proof.Machine
end

