-- ==== Sys2Proof/Laws/PerInstr.lean ====
section
/-! SUPPORT. A law of every instruction, one lemma per constructor: the decoder answers the spelling of highest priority. -/

/-- An instruction is well-formed when its command is valid (R21, R104). -/
theorem Sys2Proof.Instr.wellFormed_eq_valid (i : Sys2Proof.Instr) : i.wellFormed = i.command.valid := by
  cases i <;> rfl

namespace Sys2Proof.Laws.CanonicalSpelling

open Sys2Proof Sys2Proof.Machine

/-- An instruction that is the canonical spelling of its command is what the decoder reads from that command (spec/INDEX.md). -/
def Statement (i : Instr) : Prop := i.canonical = true → decodeCommand i.command = i

theorem reset : Statement .reset := fun _ => rfl

theorem led (r g b : Byte) : Statement (.led r g b) := fun _ => rfl

theorem motor1 (v : Byte) : Statement (.motor1 v) := fun _ => rfl

theorem servo (v : Byte) : Statement (.servo v) := fun _ => rfl

theorem motor2 (v : Byte) : Statement (.motor2 v) := fun _ => rfl

theorem setbitsnap (ch v : Byte) : Statement (.setbitsnap ch v) := by
  intro h
  simp only [Instr.canonical, Bool.and_eq_true, bne_iff_ne, ne_eq] at h
  show decodeCommand ⟨0x0A, payload2 ch v⟩ = _
  simp only [decodeCommand, payload2]
  rw [if_pos trivial, if_neg h.1.1, if_neg h.1.2, if_neg h.2]

theorem raw (op : Byte) (p : Payload) : Statement (.raw op p) := by
  intro h
  simp only [Instr.canonical, Bool.and_eq_true, Bool.not_eq_true', Bool.and_eq_false_iff, beq_eq_false_iff_ne, ne_eq] at h
  obtain ⟨⟨h2, h9⟩, he⟩ := h
  show decodeCommand ⟨op, p⟩ = _
  unfold decodeCommand
  split
  · rename_i a b hb
    simp only at hb
    exact if_neg fun (ho : op = 0x0A) => by simp [hb, ho] at h2
  · rename_i r g b hb
    simp only at hb
    rw [if_neg fun (ho : op = 0x09) => by simp [hb, ho] at h9,
      if_neg fun (hs : op = 0x0E ∧ r = 0x7F ∧ g = 0x7F ∧ b = 0x7F) => by simp [hb, hs] at he]
  · rfl

end Sys2Proof.Laws.CanonicalSpelling
end

