-- ==== Sys2Proof/Tests/Slice0.lean ====
section
/-! SUPPORT. Tests with expected values from spec/95_test_vectors.md (V, S and PROG rows) or worked out by hand from a rule, the smoke
tests of well-formedness, and a witness for the hypotheses of every statement that has some. -/

open Sys2Proof Sys2Proof.Machine

namespace Sys2Proof.Tests

-- one theorem after another: compiled side by side they ask for more threads than a small machine gives
set_option Elab.async false

/-! ## Helpers -/

/-- A payload of at most 255 of the given bytes. -/
def bytes (l : List Byte) : Payload := ⟨l.take 255, List.length_take_le 255 l⟩

/-- A configuration of depth `n + 1`. -/
def depth (n : Nat) (p : BpPolicy) : Config := ⟨n + 1, Nat.le_add_left 1 n, p⟩

/-- A state as the S rows write it, `QDEPTH = 2`. -/
def at2 (p : BpPolicy) (d : DState) (q : List Command) (f : Option Command) : State :=
  { State.resetWith (depth 1 p) with dstate := d, queue := q, inflight := f }

/-- The state an outcome answers. -/
def after : Host.Outcome State Fault Refusal → Option State
  | .next s => some s
  | .fault _ => none
  | .refused _ => none

/-- What an S row shows after a step: state, queue, write outstanding, log. -/
def shown (o : Host.Outcome State Fault Refusal) : Option (DState × List Command × Option Command × List WriteError) :=
  (after o).map fun s => (s.dstate, s.queue, s.inflight, s.log)

/-- What the step answered the producer. -/
def answered (o : Host.Outcome State Fault Refusal) : Option (Option Response) := (after o).map fun s => s.resp

/-- The events a step records. -/
def events (o : Host.Outcome State Fault Refusal) : Option (List Event) := (after o).map fun s => s.hist

/-- The state with one step of an agent on the agenda. -/
def facing (a : AgentStep) (s : State) : State := { s with agenda := [.agent a] }

/-- One step of an agent. -/
def by_ (a : AgentStep) (s : State) : Host.Outcome State Fault Refusal := step (facing a s)

/-- `A`, `B` and `Z` of the S rows. -/
def cA : Command := cmdServo 0x7F
def cB : Command := cmdMotor1 0xC0
def cZ : Command := cmdLed 0xFF 0 0

/-! ## Well-formedness: an ill-formed term for each check -/

theorem test_raw_opcode_over_127_is_ill_formed : (Instr.raw 0x80 payload0).wellFormed = false := by decide
theorem test_raw_opcode_127_is_well_formed : (Instr.raw 0x7F payload0).wellFormed = true := by decide
theorem test_setbitsnap_on_alias_channels_is_not_canonical :
    (Instr.setbitsnap 0 9).canonical = false ∧ (Instr.setbitsnap 1 9).canonical = false ∧ (Instr.setbitsnap 2 9).canonical = false ∧
      (Instr.setbitsnap 3 9).canonical = true := by decide
theorem test_raw_of_a_defined_shape_is_not_canonical :
    (Instr.raw 0x0A (bytes [9, 9])).canonical = false ∧ (Instr.raw 0x09 (bytes [1, 2, 3])).canonical = false ∧
      (Instr.raw 0x0E (bytes [0x7F, 0x7F, 0x7F])).canonical = false ∧ (Instr.raw 0x0E (bytes [0x7F, 0x7F, 0])).canonical = true := by decide

/-! ## Operands and checksum (V3, V4, V6, V9) -/

theorem test_wide_value_is_truncated : trunc8 300 = 0x2C := by decide
theorem test_crc_check_value : crc16 [0x31, 0x32, 0x33, 0x34, 0x35, 0x36, 0x37, 0x38, 0x39] = 0x29B1 := by decide +kernel
theorem test_crc_after_one_byte : crcByte 0xFFFF 0x02 = 0xC1B2 ∧ crcByte 0xC1B2 0xC0 = 0xA221 := by decide +kernel
theorem test_crc_corners :
    crc16 [] = 0xFFFF ∧ crc16 [0] = 0xE1F0 ∧ crc16 [0x80] = 0x7078 ∧ crc16 [0xFF, 0xFF] = 0 ∧ crc16 [0x02, 0xC1] = 0xB200 := by
  decide +kernel
theorem test_crc_table_entries :
    crcTableEntry 0 = 0 ∧ crcTableEntry 1 = 0x1021 ∧ crcTableEntry 0x80 = 0x9188 ∧ crcTableEntry 0xFD = 0x3EB2 ∧
      crcTableEntry 0xFF = 0x1EF0 := by decide +kernel
theorem test_crc_by_table : crc16ByTable [0x02, 0xC0] = 0xA221 := by decide +kernel
set_option maxRecDepth 100000 in
theorem test_crc_of_255_zeros : crc16 (List.replicate 255 0) = 0xE6DC := by decide +kernel

/-! ## Frames (V8) and their decoding (V10) -/

theorem test_raw_frames :
    encode (.raw 0 payload0) = [0x00, 0x00, 0xFF, 0xFF] ∧ encode (.raw 0x7F (bytes [0xFF])) = [0xFE, 0x01, 0xFF, 0xFF, 0x00] ∧
      encode (.raw 0x09 (bytes [0x02, 0xC0])) = [0x12, 0x02, 0x02, 0xC0, 0xA2, 0x21] := by decide +kernel
theorem test_motor1_frame : encode (.motor1 0x10) = [0x14, 0x02, 0x00, 0x10, 0x0F, 0x3E] := by decide +kernel
theorem test_servo_frame : encode (.servo 0x00) = [0x14, 0x02, 0x01, 0x00, 0x2E, 0x3E] := by decide +kernel
theorem test_motor2_frame : encode (.motor2 0xC0) = [0x14, 0x02, 0x02, 0xC0, 0xA2, 0x21] := by decide +kernel
theorem test_led_frame : encode (.led 0 0xFF 0) = [0x12, 0x03, 0x00, 0xFF, 0x00, 0xCF, 0x63] := by decide +kernel
theorem test_serial_frame : serialFrame cmdReset = [0x1C, 0x03, 0x7F, 0x7F, 0x7F, 0xAF, 0xBA] := by decide +kernel

theorem test_decode_reset : decodeFrame [0x1C, 0x03, 0x7F, 0x7F, 0x7F, 0xAF, 0xBA] = .ok .reset := by decide +kernel
theorem test_decode_led : decodeFrame [0x12, 0x03, 0x12, 0x34, 0x56, 0x12, 0xFD] = .ok (.led 0x12 0x34 0x56) := by decide +kernel
theorem test_decode_motor1 : decodeFrame [0x14, 0x02, 0x00, 0x7F, 0x92, 0x77] = .ok (.motor1 0x7F) := by decide +kernel
theorem test_decode_servo : decodeFrame [0x14, 0x02, 0x01, 0xC0, 0xF7, 0x72] = .ok (.servo 0xC0) := by decide +kernel
theorem test_decode_motor2 : decodeFrame [0x14, 0x02, 0x02, 0x7F, 0xF4, 0x15] = .ok (.motor2 0x7F) := by decide +kernel
theorem test_decode_setbitsnap : decodeFrame [0x14, 0x02, 0x03, 0x55, 0x42, 0x0C] = .ok (.setbitsnap 3 0x55) := by decide +kernel
theorem test_decode_raw : decodeFrame [0x02, 0x01, 0x00, 0xE1, 0xF0] = .ok (.raw 1 (bytes [0])) := by decide +kernel
theorem test_decode_raw_corrupted_header : decodeFrame [0x16, 0x02, 0x02, 0xC0, 0xA2, 0x21] = .ok (.raw 0x0B (bytes [0x02, 0xC0])) := by
  decide +kernel
theorem test_decode_refuses_by_name :
    decodeFrame [0x14, 0x02] = .error .tooShort ∧ decodeFrame [0x14, 0x02, 0x02, 0xC0, 0xA2] = .error .lengthMismatch ∧
      decodeFrame [0x14, 0x03, 0x02, 0xC0, 0xA2, 0x21] = .error .lengthMismatch ∧
      decodeFrame [0x15, 0x02, 0x02, 0xC0, 0xA2, 0x21] = .error .reservedBit ∧
      decodeFrame [0x14, 0x02, 0x02, 0xC1, 0xA2, 0x21] = .error .badChecksum := by decide +kernel

/-! ## The table's words (log 14) and the fetch (log 15) -/

theorem test_table_words :
    decodeTableWord 16 0x1402 = some (.motor1 0) ∧ decodeTableWord 16 0x1203 = some (.led 0 0 0) ∧
      decodeTableWord 16 0 = some (.raw 0 payload0) ∧ decodeTableWord 16 0x1C03 = some (.raw 0x0E (bytes [0, 0, 0])) ∧
      decodeTableWord 16 0x0100 = none := by decide
theorem test_table_words_in_full :
    decodeTableWord 56 0xBA7FAF7F7F1C03 = some .reset ∧ decodeTableWord 32 0x01001402 = some (.servo 0) ∧
      decodeTableWord 32 0x02C01402 = some (.motor2 0xC0) ∧ decodeTableWord 32 0x03551402 = some (.setbitsnap 3 0x55) := by decide
theorem test_fetched_word_runs_from_reset :
    shown (step (State.reset.withFetchWord 16 0x1402)) = some (.running, [cmdReset, cmdMotor1 0], none, []) := by decide
theorem test_port_ignores_lines_past_the_length : decodePort ⟨0x0A, 2, [1, 0x7F, 0xEE, 0xEE]⟩ = .servo 0x7F := by decide

/-! ## Instructions: acceptance, and one case turned away (S4 to S12) -/

theorem test_reset_accepted : shown (exec .reset (at2 .block .running [cA] none)) = some (.running, [cA, cmdReset], none, []) := by decide
theorem test_reset_closed : answered (exec .reset (at2 .block .draining [cA] none)) = some (some (.refused .closed)) := by decide
theorem test_led_accepted_beside_a_write :
    shown (exec (.led 1 2 3) (at2 .block .running [cA] (some cmdReset))) =
      some (.running, [cA, ⟨0x09, bytes [1, 2, 3]⟩], some cmdReset, []) := by decide
theorem test_led_on_a_full_queue : answered (exec (.led 1 2 3) (at2 .failFast .running [cA, cB] none)) = some (some (.refused .queueFull)) := by
  decide
theorem test_motor1_accepted :
    shown (exec (.motor1 5) (at2 .block .running [] none)) = some (.running, [⟨0x0A, bytes [0, 5]⟩], none, []) := by decide
theorem test_motor1_held : (after (exec (.motor1 5) (at2 .block .running [cmdReset, cA] none))).map (fun s => (s.queue, s.hist, s.resp)) =
    some ([cmdReset, cA], [], none) := by decide
theorem test_servo_accepted :
    shown (exec (.servo 5) (at2 .block .running [] none)) = some (.running, [⟨0x0A, bytes [1, 5]⟩], none, []) := by decide
theorem test_servo_held_in_created : (after (exec (.servo 5) State.reset)).map (fun s => (s.queue, s.hist, s.resp)) = some ([], [], none) := by
  decide
theorem test_motor2_accepted :
    shown (exec (.motor2 5) (at2 .block .running [] none)) = some (.running, [⟨0x0A, bytes [2, 5]⟩], none, []) := by decide
theorem test_motor2_closed : answered (exec (.motor2 5) (at2 .block .stopped [] none)) = some (some (.refused .closed)) := by decide
theorem test_setbitsnap_any_channel :
    shown (exec (.setbitsnap 0xFE 5) (at2 .block .running [] none)) = some (.running, [⟨0x0A, bytes [0xFE, 5]⟩], none, []) := by decide
theorem test_setbitsnap_event :
    events (exec (.setbitsnap 3 5) (at2 .block .running [] none)) = some [.accepted ⟨0x0A, bytes [3, 5]⟩] := by decide
theorem test_raw_bad_command_on_a_full_queue :
    answered (exec (.raw 0xFF payload0) (at2 .block .running [cA, cB] none)) = some (some (.refused .badCommand)) := by decide
theorem test_raw_closed_before_bad_command :
    answered (exec (.raw 0xFF payload0) (at2 .block .stopped [] none)) = some (some (.refused .closed)) := by decide

/-! ## The other steps (S1 to S3, S13 to S28) -/

theorem test_start : shown (by_ .start (at2 .block .created [] none)) = some (.running, [cmdReset], none, []) := by decide
theorem test_start_again : shown (by_ .start (at2 .block .stopped [] none)) = some (.stopped, [], none, []) := by decide
theorem test_dispatch : shown (by_ .dispatch (at2 .block .running [cmdReset, cA] none)) = some (.running, [cA], some cmdReset, []) := by decide
theorem test_dispatch_event :
    events (by_ .dispatch (at2 .block .draining [cmdReset] none)) = some [.issued [0x1C, 0x03, 0x7F, 0x7F, 0x7F, 0xAF, 0xBA]] := by
  decide +kernel
theorem test_dispatch_waits : shown (by_ .dispatch (at2 .block .running [cA] (some cmdReset))) = some (.running, [cA], some cmdReset, []) := by decide
theorem test_complete_ok : shown (by_ (.respond .ok) (at2 .block .draining [] (some cZ))) = some (.stopped, [], none, []) := by decide
theorem test_complete_err : shown (by_ (.respond .error) (at2 .block .running [cA] (some cZ))) = some (.running, [cA], none, [⟨cZ⟩]) := by decide
theorem test_complete_err_last :
    events (by_ (.respond .error) (at2 .block .draining [] (some cZ))) = some [.completed .error, .stopped] := by decide
theorem test_complete_mid_drain : shown (by_ (.respond .ok) (at2 .block .draining [cA] (some cZ))) = some (.draining, [cA], none, []) := by decide
theorem test_answer_to_nothing : shown (by_ (.respond .ok) (at2 .block .running [] none)) = some (.running, [], none, []) := by decide
theorem test_close_in_created : events (by_ .close (at2 .block .created [] none)) = some [.closeRequested, .stopped] := by decide
theorem test_close_idle : shown (by_ .close (at2 .block .running [] none)) = some (.stopped, [], none, []) := by decide
theorem test_close_busy : shown (by_ .close (at2 .block .running [] (some cZ))) = some (.draining, [], some cZ, []) := by decide
theorem test_close_again : events (by_ .close (at2 .block .draining [cA] none)) = some [] := by decide
theorem test_hardware_reset : shown (by_ .hardwareReset (at2 .block .draining [cA] (some cZ))) = some (.created, [], none, []) := by decide
theorem test_codes :
    DState.code .stopped = 3 ∧ Response.code (.refused .badCommand) = 3 ∧ Answer.code .ok = 1 ∧ policyCode .failFast = 1 ∧
      State.werrCountIn 1 { State.reset with log := [⟨cA⟩, ⟨cB⟩] } = 1 := by decide

/-! ## Witnesses: states and operands that meet the hypotheses of each statement, clause by clause -/

/-- An opcode of 127 and a payload of 255 bytes. -/
theorem witness_EncodeLaysOutTheFrame :
    (⟨0x7F, bytes (List.replicate 255 1)⟩ : Command).op.toNat ≤ 127 ∧ 254 < (bytes (List.replicate 255 1)).bytes.length := by decide +kernel

theorem witness_ChecksumIgnoresTheHeader : (0x00 : Byte).toNat ≤ 127 ∧ (0x7F : Byte).toNat ≤ 127 ∧ (1 : Nat) ≠ 0 := by decide

/-- The shortest frame, and two valid commands. -/
theorem witness_WellFormedFramesDecode :
    decodeFrame [0x00, 0x00, 0xFF, 0xFF] = .ok (.raw 0 payload0) ∧ cmdReset.valid = true ∧ (cmdRaw 0x7F payload0).valid = true ∧
      encodeCommand cmdReset = encodeCommand ⟨0x0E, bytes [0x7F, 0x7F, 0x7F]⟩ := by decide +kernel

theorem witness_DecodeInvertsEncode :
    (Instr.setbitsnap 3 0).wellFormed = true ∧ (Instr.setbitsnap 3 0).canonical = true ∧
      (Instr.raw 0x7F payload0).wellFormed = true ∧ (Instr.raw 0x7F payload0).canonical = true ∧
      (Instr.setbitsnap 2 0).wellFormed = true ∧ (Instr.setbitsnap 2 0).canonical = false ∧
      decodeFrame [0xFE, 0x00, 0xFF, 0xFF] = .ok (.raw 0x7F payload0) := by decide +kernel

theorem witness_PortDecodeInvertsPresentation : (Instr.setbitsnap 0xFF 0).canonical = true ∧ (1 : Nat) < (⟨0x0A, 2, []⟩ : CmdPort).len.toNat := by
  decide

theorem witness_SerialEncoderEmitsTheFrame : (3 : Nat) ≤ (cmdRaw 0 payload0).payload.bytes.length + 3 := by decide

/-- Running with one place left, at depth 2 and at the default depth; the largest legal opcode. -/
theorem witness_acceptance :
    (at2 .block .running [cA] none).dstate = .running ∧
      (at2 .block .running [cA] none).queue.length < (at2 .block .running [cA] none).cfg.qdepth ∧
      (List.replicate 99 cA).length < Config.default.qdepth ∧ (0x7F : Byte).toNat ≤ 127 := by decide

/-- A state and an instruction for each of the six cases of ENQUEUE, at the two opcodes where the cases meet. -/
theorem witness_EnqueueFollowsEveryCase :
    State.reset.dstate = .created ∧ (at2 .block .draining [cA] none).dstate = .draining ∧ (at2 .block .stopped [] none).dstate = .stopped ∧
      (∀ p q, (at2 p .running q none).dstate = .running ∧ (at2 p .running q none).queue = q ∧ (at2 p .running q none).cfg = depth 1 p) ∧
      128 ≤ (Instr.raw 0x80 payload0).command.op.toNat ∧ (Instr.raw 0x7F payload0).command.op.toNat < 128 ∧
      [cA].length < (depth 1 .block).qdepth ∧ (depth 1 .failFast).qdepth ≤ [cA, cB].length ∧ (depth 1 .failFast).policy = .failFast ∧
      (depth 1 .block).qdepth ≤ [cA, cB].length ∧ (depth 1 .block).policy = .block :=
  ⟨rfl, rfl, rfl, fun _ _ => ⟨rfl, rfl, rfl⟩, by decide⟩

theorem witness_SpellingsAreIndistinguishable :
    (Instr.motor1 7).command = (Instr.raw 0x0A (bytes [0, 7])).command ∧ (bytes [3, 7]).bytes = [3, 7] ∧
      (bytes [1, 2, 3]).bytes = [1, 2, 3] ∧ (bytes [0x7F, 0x7F, 0x7F]).bytes = [0x7F, 0x7F, 0x7F] := by decide

theorem witness_StepRunsThePresentedCommand :
    (presentCommand ⟨0x0A, 2, [0, 7]⟩ State.reset).agenda = .command ⟨0x0A, 2, [0, 7]⟩ :: [] ∧ decodePort ⟨0x0A, 2, [0, 7]⟩ = .motor1 7 := by
  decide

theorem witness_FetchedTableWordRuns : decodeTableWord 56 0xBA7FAF7F7F1C03 = some .reset := by decide

theorem witness_StartQueuesTheResetCommand :
    (facing .start State.reset).agenda = .agent .start :: [] ∧ (facing .start State.reset).dstate = .created ∧
      (facing .start (at2 .block .running [] none)).agenda = .agent .start :: [] ∧
      (facing .start (at2 .block .running [] none)).dstate ≠ .created := by decide

/-- DISPATCH on the agenda: enabled in `Running` and in `Draining`, and not enabled for each of the four reasons. -/
theorem witness_DispatchIssuesTheHead :
    (∀ d, d = .running ∨ d = .draining →
      (facing .dispatch (at2 .block d [cA] none)).agenda = .agent .dispatch :: [] ∧ (facing .dispatch (at2 .block d [cA] none)).dstate = d ∧
        (facing .dispatch (at2 .block d [cA] none)).inflight = none ∧ (facing .dispatch (at2 .block d [cA] none)).queue = cA :: []) ∧
      (facing .dispatch State.reset).dstate = .created ∧ (facing .dispatch (at2 .block .stopped [] none)).dstate = .stopped ∧
      (facing .dispatch (at2 .block .running [cA] (some cB))).inflight ≠ none ∧
      (facing .dispatch (at2 .block .running [] none)).queue = [] :=
  ⟨fun _ _ => ⟨rfl, rfl, rfl, rfl⟩, by decide⟩

theorem witness_ConsumerGoesOnAlone :
    (at2 .block .running [cA] none).agenda = [] ∧ (at2 .block .running [cA] none).dstate = .running ∧
      (at2 .block .running [cA] none).inflight = none ∧ (at2 .block .running [cA] none).queue = cA :: [] ∧
      State.reset.agenda = [] ∧ State.reset.dstate = .created := by decide

/-- A write outstanding at the end of a drain, in the middle of one, and in `Running`; for either answer. -/
theorem witness_completion (a : Answer) :
    (∀ d q, (facing (.respond a) (at2 .block d q (some cZ))).agenda = .agent (.respond a) :: [] ∧
      (facing (.respond a) (at2 .block d q (some cZ))).enc.sending = false ∧
      (facing (.respond a) (at2 .block d q (some cZ))).inflight = some cZ ∧
      (facing (.respond a) (at2 .block d q (some cZ))).dstate = d ∧ (facing (.respond a) (at2 .block d q (some cZ))).queue = q) ∧
      (DState.draining = .draining ∧ ([] : List Command) = []) ∧ ¬(DState.draining = .draining ∧ [cA] = []) ∧
      ¬(DState.running = .draining ∧ ([] : List Command) = []) :=
  ⟨fun _ _ => ⟨rfl, rfl, rfl, rfl, rfl⟩, by decide⟩

/-- Nothing outstanding, and a frame part way out of the wire port. -/
theorem witness_StrayAnswersAreIgnored :
    (facing (.respond .ok) (at2 .block .running [] none)).agenda = .agent (.respond .ok) :: [] ∧
      (facing (.respond .ok) (at2 .block .running [] none)).inflight = none ∧
      (facing (.respond .ok) { at2 .block .running [] (some cA) with enc := (Encoder.load cA).advance }).enc.sending = true := by
  decide +kernel

/-- CLOSE on the agenda in each state: `Created`; `Running` idle, with a command queued, with a write outstanding; `Draining`; `Stopped`. -/
theorem witness_CloseDrains :
    (∀ s, (facing .close s).agenda = .agent .close :: []) ∧ (facing .close State.reset).dstate = .created ∧
      ((facing .close (at2 .block .running [] none)).dstate = .running ∧ (facing .close (at2 .block .running [] none)).queue = [] ∧
        (facing .close (at2 .block .running [] none)).inflight = none) ∧
      ((facing .close (at2 .block .running [cA] none)).dstate = .running ∧ (facing .close (at2 .block .running [cA] none)).queue ≠ []) ∧
      (facing .close (at2 .block .running [] (some cA))).inflight ≠ none ∧
      (facing .close (at2 .block .draining [cA] none)).dstate = .draining ∧ (facing .close (at2 .block .stopped [] none)).dstate = .stopped :=
  ⟨fun _ => rfl, by decide⟩

/-- The agendas of the host's other moves. -/
theorem witness_host_moves :
    (facing .hardwareReset (at2 .block .draining [cA] (some cB))).agenda = .agent .hardwareReset :: [] ∧
      (facing (.establish .timeoutError) State.reset).agenda = .agent (.establish .timeoutError) :: [] ∧
      (facing (.establish .discoveryError) State.reset).agenda = .agent (.establish .discoveryError) :: [] ∧
      (facing .statusRead State.reset).agenda = .agent .statusRead :: [] ∧
      (facing (.establish .ready) State.reset).agenda = .agent (.establish .ready) :: [] := by decide

/-- A step answers a next state, here from the reset state with nothing placed: the block is idle. -/
theorem witness_step_from_reset : after (step State.reset) = some State.reset := by decide +kernel

/-- A state after START, one write answered and one outstanding, with a command queued. -/
def busy : State :=
  { at2 .block .draining [cB] (some cA) with hist := [.started, .accepted cA, .accepted cB, .issued (encodeCommand cmdReset), .completed .ok, .issued (encodeCommand cA), .closeRequested] }

/-- The end of a run with one failed write. -/
def finished : State :=
  { at2 .block .stopped [] none with log := [⟨cA⟩], hist := [.started, .accepted cA, .issued (encodeCommand cmdReset), .completed .ok, .issued (encodeCommand cA), .closeRequested, .completed .error, .stopped] }

theorem witness_Inv : Inv busy where
  withinCapacity := by decide
  queueValid := by decide
  inflightValid := by intro c h; cases h; decide
  createdEmpty := by decide
  stoppedEmpty := by decide
  drainingBusy := by decide
  writesAnswered := by decide +kernel
  failuresLogged := by decide +kernel

theorem witness_Ordered : Ordered busy where
  createdFresh := by decide
  begun := fun _ => List.mem_cons_self
  silent := fun h => absurd List.mem_cons_self h
  inOrder := fun _ => by decide +kernel

theorem witness_OneWriteOutstanding : OneWriteOutstanding busy := by unfold OneWriteOutstanding; decide +kernel

/-- The encoder in the middle of a frame: the header, the length and the first payload byte have been transferred. -/
theorem witness_EncoderInFrame :
    EncoderInFrame { busy with enc := (Encoder.load cA).advance.advance.advance } := by
  intro _
  decide +kernel

theorem witness_finished_Inv : Inv finished where
  withinCapacity := by decide
  queueValid := by decide
  inflightValid := by intro c h; cases h
  createdEmpty := by decide
  stoppedEmpty := by decide
  drainingBusy := by decide
  writesAnswered := by decide +kernel
  failuresLogged := by decide +kernel

theorem witness_finished_Ordered : Ordered finished where
  createdFresh := by decide
  begun := fun _ => List.mem_cons_self
  silent := fun h => absurd List.mem_cons_self h
  inOrder := fun _ => by decide +kernel

theorem witness_StoppedMeansAllDelivered : finished.dstate = .stopped ∧ Event.started ∈ finished.hist := ⟨rfl, List.mem_cons_self⟩

theorem witness_TransitionsFollowTheTable :
    finished.dstate = .stopped ∧ nextMove finished ≠ some (.agent .hardwareReset) ∧ ∃ t, step finished = .next t := ⟨rfl, by decide, _, rfl⟩

theorem witness_StoppedIsTheEnd :
    finished.dstate = .stopped ∧ Move.agent .hardwareReset ∉ finished.agenda ∧ ∃ t, runSteps 2 finished = .next t := ⟨rfl, by decide, _, rfl⟩

/-- PROG4 up to the refused late command, with one answer after it. -/
theorem witness_EveryRunFromResetIsSound :
    ∃ t, runSteps 6 (resetFacing (depth 4 .block) [.agent .start, .command ⟨0x0A, 2, [2, 0xC0]⟩, .agent .dispatch, .agent .close, .command ⟨0x09, 3, [0, 0, 0]⟩, .agent (.respond .ok)]) = .next t ∧
      t.dstate = .draining ∧ t.queue = [cmdMotor2 0xC0] ∧ t.inflight = none ∧ t.log = [] := ⟨_, rfl, rfl, rfl, rfl, rfl⟩

theorem witness_ResetFrameComesFirst_issued : (issuedIn busy.hist).head? = some [0x1C, 0x03, 0x7F, 0x7F, 0x7F, 0xAF, 0xBA] := by decide +kernel

theorem witness_ResetFrameComesFirst_created :
    Ordered { State.reset with agenda := [.agent .close] } ∧ State.reset.dstate = .created ∧
      nextMove { State.reset with agenda := [.agent .close] } = some (.agent .close) ∧
      Move.agent .hardwareReset ∉ ({ State.reset with agenda := [.agent .close] }).agenda :=
  ⟨⟨fun _ => ⟨rfl, rfl, rfl⟩, by decide, fun _ => ⟨rfl, rfl, rfl⟩, fun h => absurd h (by decide)⟩, rfl, rfl, by decide⟩

/-- A drain of two commands whose second write fails, with nothing outstanding. -/
def draining2 : State := { at2 .block .draining [cA, cB] none with agenda := drainFrom none [.ok, .error] }

/-- R186's example: two commands queued, a write outstanding, then CLOSE. -/
def closing : State := { at2 .block .running [cA, cB] (some cZ) with agenda := .agent .close :: drainFrom (some cZ) [.error, .ok, .ok] }

/-- A drain in which only the last answer is missing. -/
def lastAnswer : State := { at2 .block .draining [] (some cZ) with agenda := drainFrom (some cZ) [.ok] }

theorem witness_DrainReachesStopped :
    (draining2.dstate = .draining ∧ draining2.enc.sending = false ∧ [Answer.ok, .error] ≠ [] ∧
      [Answer.ok, .error].length = (draining2.inflight.toList ++ draining2.queue).length ∧
      draining2.agenda = drainFrom draining2.inflight [.ok, .error]) ∧
    (lastAnswer.dstate = .draining ∧ lastAnswer.enc.sending = false ∧
      [Answer.ok].length = (lastAnswer.inflight.toList ++ lastAnswer.queue).length ∧
      lastAnswer.agenda = drainFrom lastAnswer.inflight [.ok]) ∧
    (closing.dstate = .running ∧ closing.enc.sending = false ∧
      [Answer.error, .ok, .ok].length = (closing.inflight.toList ++ closing.queue).length ∧
      closing.agenda = .agent .close :: drainFrom closing.inflight [.error, .ok, .ok]) := by decide

/-- The same write answered ok in one run and with an error in the other; one step answers. -/
theorem witness_FailuresDoNotChangeTheWire :
    SameButFailures { busy with agenda := [.agent (.respond .ok)] } { busy with agenda := [.agent (.respond .error)] } ∧
      ∃ t, runSteps 1 { busy with agenda := [.agent (.respond .ok)] } = .next t :=
  ⟨⟨rfl, rfl, rfl, rfl, rfl, rfl, rfl, by decide, rfl⟩, _, rfl⟩

/-- Six transfers for the six bytes of a frame. -/
def wired : State := { at2 .block .running [cA] none with agenda := List.replicate 6 (.agent .wireTransfer) }

theorem witness_WireTransfersRefineDispatch :
    wired.dstate = .running ∧ wired.inflight = none ∧ wired.enc.sending = false ∧ wired.queue = cA :: [] ∧
      wired.agenda = List.replicate (cA.payload.bytes.length + 4) (.agent .wireTransfer) ∧ 5 < cA.payload.bytes.length + 4 := by decide

/-- `busy` with three bytes of its frame out, a CLOSE, a command and the next transfer to come. -/
def midFrame : State :=
  { busy with enc := (Encoder.load cA).advance.advance.advance, agenda := [.agent .close, .command ⟨0x7F, 0, []⟩, .agent .wireTransfer] }

/-- The same with the last byte to be transferred next. -/
def lastByte : State := { busy with enc := Encoder.advance^[5] (Encoder.load cA), agenda := [.agent .wireTransfer] }

theorem witness_EachWireTransferMovesOneByte :
    ((facing .wireTransfer midFrame).agenda = .agent .wireTransfer :: [] ∧ (facing .wireTransfer midFrame).enc.sending = true ∧
        (facing .wireTransfer midFrame).enc.idx.toNat ≠ (facing .wireTransfer midFrame).enc.cur.payload.bytes.length + 3) ∧
      (lastByte.agenda = .agent .wireTransfer :: [] ∧ lastByte.enc.sending = true ∧
        lastByte.enc.idx.toNat = lastByte.enc.cur.payload.bytes.length + 3) ∧
      ((facing .wireTransfer (at2 .block .running [cA] none)).agenda = .agent .wireTransfer :: [] ∧
        (facing .wireTransfer (at2 .block .running [cA] none)).enc.sending = false ∧
        (facing .wireTransfer (at2 .block .running [cA] none)).dstate = .running ∧
        (facing .wireTransfer (at2 .block .running [cA] none)).inflight = none ∧
        (facing .wireTransfer (at2 .block .running [cA] none)).queue = cA :: []) ∧
      ((facing .wireTransfer State.reset).enc.sending = false ∧ (facing .wireTransfer State.reset).dstate = .created) := by decide +kernel

theorem witness_OtherMovesDoNotDisturbTheFrame :
    (EncoderInFrame midFrame ∧ midFrame.enc.sending = true ∧ Move.agent .hardwareReset ∉ midFrame.agenda ∧
      midFrame.enc.idx.toNat + (midFrame.agenda.take 3).count (.agent .wireTransfer) ≤ midFrame.enc.cur.payload.bytes.length + 3) ∧
      ∃ t, runSteps 3 midFrame = .next t :=
  ⟨⟨fun _ => by decide +kernel, by decide +kernel, by decide, by decide +kernel⟩, _, rfl⟩

theorem witness_StatusOutputsFollowTheSteps :
    nextMove (facing (.respond .error) (at2 .block .running [cA] (some cZ))) ≠ some (.agent .hardwareReset) ∧
      (after (by_ (.respond .error) (at2 .block .running [cA] (some cZ)))).map (fun s => (s.werr, s.werrCount, s.qcount)) = some (true, 1, 1) := by
  decide

theorem witness_TableWordsReadTheirFields :
    (16 ≤ 56 ∧ 0xBA7FAF7F7F1C03 < 2 ^ 56 ∧ Nat.testBit 0xBA7FAF7F7F1C03 8 = false ∧ 2 < 0xBA7FAF7F7F1C03 % 2 ^ 8) ∧
      (16 ≤ 16 ∧ 0x0100 < 2 ^ 16 ∧ Nat.testBit 0x0100 8 = true) ∧ (56 / 8 ≠ 2 + 3) := by decide

/-- The frame of RESET as the table's row numbers it. -/
theorem test_table_word_of_reset : tableWord (encode .reset) = 0xBA7FAF7F7F1C03 := by decide +kernel

theorem witness_HungWriteStallsTheBlock :
    busy.inflight = some cA ∧ (∀ a, Move.agent (.respond a) ∉ busy.agenda) ∧ Move.agent .hardwareReset ∉ busy.agenda ∧
      ∃ t, runSteps 1 busy = .next t :=
  ⟨rfl, by simp [busy, at2, State.resetWith], by simp [busy, at2, State.resetWith], _, rfl⟩

/-- A full queue of depth 2, DISPATCH and then a command to present. -/
def crowded : State := { at2 .block .running [cA, cB] none with agenda := [.agent .dispatch, .command ⟨0x7F, 0, []⟩] }

/-- A full queue of depth 2 under `Block`, a command presented before and after CLOSE. -/
def heldBack : State :=
  { at2 .block .running [cA, cB] none with agenda := [.command ⟨0x7F, 0, []⟩, .agent .close, .command ⟨0x7F, 0, []⟩] }

theorem witness_DispatchFreesAPlace :
    crowded.dstate = .running ∧ crowded.inflight = none ∧ crowded.queue.length = crowded.cfg.qdepth ∧
      decodePort ⟨0x7F, 0, []⟩ = .raw 0x7F payload0 ∧ (Instr.raw 0x7F payload0).wellFormed = true ∧
      crowded.agenda = [.agent .dispatch, .command ⟨0x7F, 0, []⟩] := by decide

theorem witness_HeldProducerIsReleasedByClose :
    heldBack.dstate = .running ∧ heldBack.cfg.policy = .block ∧ heldBack.queue.length = heldBack.cfg.qdepth ∧
      decodePort ⟨0x7F, 0, []⟩ = .raw 0x7F payload0 ∧ (Instr.raw 0x7F payload0).wellFormed = true ∧
      heldBack.agenda = .command ⟨0x7F, 0, []⟩ :: .agent .close :: .command ⟨0x7F, 0, []⟩ :: [] := by decide

end Sys2Proof.Tests
end

/-! SUPPORT. What each operation of the agents leaves unchanged, and one step and a run of the machine. -/

namespace Sys2Proof.Machine

/-! ### The frame of each operation -/

/-- ENQUEUE writes only the queue, the history and the answer (R182). -/
theorem enqueue_frame (c : Command) (s : State) :
    enqueue c s = { s with queue := (enqueue c s).queue, hist := (enqueue c s).hist, resp := (enqueue c s).resp } := by
  rcases enqueue_cases c s with ⟨-, e⟩ | ⟨-, e⟩ | ⟨-, -, e⟩ | ⟨-, -, -, e⟩ | ⟨-, -, -, -, e⟩ | ⟨-, -, -, -, e⟩ <;> rw [e] <;> rfl

@[simp] theorem enqueue_cfg (c : Command) (s : State) : (enqueue c s).cfg = s.cfg := by rw [enqueue_frame]
@[simp] theorem enqueue_dstate (c : Command) (s : State) : (enqueue c s).dstate = s.dstate := by rw [enqueue_frame]
@[simp] theorem enqueue_inflight (c : Command) (s : State) : (enqueue c s).inflight = s.inflight := by rw [enqueue_frame]
@[simp] theorem enqueue_log (c : Command) (s : State) : (enqueue c s).log = s.log := by rw [enqueue_frame]
@[simp] theorem enqueue_enc (c : Command) (s : State) : (enqueue c s).enc = s.enc := by rw [enqueue_frame]
@[simp] theorem enqueue_werr (c : Command) (s : State) : (enqueue c s).werr = s.werr := by rw [enqueue_frame]
@[simp] theorem enqueue_agenda (c : Command) (s : State) : (enqueue c s).agenda = s.agenda := by rw [enqueue_frame]
@[simp] theorem enqueue_draws (c : Command) (s : State) : (enqueue c s).draws = s.draws := by rw [enqueue_frame]

/-- START writes only `dstate`, the queue and the history (R181). -/
theorem start_frame (s : State) :
    start s = { s with dstate := (start s).dstate, queue := (start s).queue, hist := (start s).hist } := by
  rcases start_cases s with ⟨-, e⟩ | ⟨-, e⟩ <;> rw [e]
  rfl

@[simp] theorem start_cfg (s : State) : (start s).cfg = s.cfg := by rw [start_frame]
@[simp] theorem start_inflight (s : State) : (start s).inflight = s.inflight := by rw [start_frame]
@[simp] theorem start_log (s : State) : (start s).log = s.log := by rw [start_frame]
@[simp] theorem start_enc (s : State) : (start s).enc = s.enc := by rw [start_frame]
@[simp] theorem start_resp (s : State) : (start s).resp = s.resp := by rw [start_frame]
@[simp] theorem start_werr (s : State) : (start s).werr = s.werr := by rw [start_frame]
@[simp] theorem start_agenda (s : State) : (start s).agenda = s.agenda := by rw [start_frame]
@[simp] theorem start_draws (s : State) : (start s).draws = s.draws := by rw [start_frame]

/-- CLOSE writes only `dstate` and the history (R186). -/
theorem close_frame (s : State) : close s = { s with dstate := (close s).dstate, hist := (close s).hist } := by
  rcases close_cases s with ⟨-, e⟩ | ⟨-, -, -, e⟩ | ⟨-, -, e⟩ | ⟨-, e⟩ <;> rw [e] <;> rfl

@[simp] theorem close_cfg (s : State) : (close s).cfg = s.cfg := by rw [close_frame]
@[simp] theorem close_queue (s : State) : (close s).queue = s.queue := by rw [close_frame]
@[simp] theorem close_inflight (s : State) : (close s).inflight = s.inflight := by rw [close_frame]
@[simp] theorem close_log (s : State) : (close s).log = s.log := by rw [close_frame]
@[simp] theorem close_enc (s : State) : (close s).enc = s.enc := by rw [close_frame]
@[simp] theorem close_resp (s : State) : (close s).resp = s.resp := by rw [close_frame]
@[simp] theorem close_werr (s : State) : (close s).werr = s.werr := by rw [close_frame]
@[simp] theorem close_agenda (s : State) : (close s).agenda = s.agenda := by rw [close_frame]
@[simp] theorem close_draws (s : State) : (close s).draws = s.draws := by rw [close_frame]

/-- DISPATCH moves the head of the queue in flight, records the frame and uses the encoder; it writes nothing else (R183). -/
theorem dispatch_frame (s : State) :
    dispatch s = { s with queue := (dispatch s).queue, inflight := (dispatch s).inflight, hist := (dispatch s).hist, enc := (dispatch s).enc, draws := (dispatch s).draws } := by
  rcases dispatch_cases s with ⟨-, e⟩ | ⟨c, t, ht, e⟩ <;> rw [e]
  obtain ⟨-, -, q, -, rfl⟩ := takeHead_eq_some ht
  rfl

@[simp] theorem dispatch_cfg (s : State) : (dispatch s).cfg = s.cfg := by rw [dispatch_frame]
@[simp] theorem dispatch_dstate (s : State) : (dispatch s).dstate = s.dstate := by rw [dispatch_frame]
@[simp] theorem dispatch_log (s : State) : (dispatch s).log = s.log := by rw [dispatch_frame]
@[simp] theorem dispatch_resp (s : State) : (dispatch s).resp = s.resp := by rw [dispatch_frame]
@[simp] theorem dispatch_werr (s : State) : (dispatch s).werr = s.werr := by rw [dispatch_frame]
@[simp] theorem dispatch_agenda (s : State) : (dispatch s).agenda = s.agenda := by rw [dispatch_frame]

/-- A byte transfer writes what DISPATCH may write, and nothing else (R35, R138). -/
theorem wireTransfer_frame (s : State) :
    wireTransfer s = { s with queue := (wireTransfer s).queue, inflight := (wireTransfer s).inflight, hist := (wireTransfer s).hist, enc := (wireTransfer s).enc, draws := (wireTransfer s).draws } := by
  rcases wireTransfer_cases s with ⟨-, -, e⟩ | ⟨-, -, e⟩ | ⟨-, -, e⟩ | ⟨-, c, t, ht, e⟩ <;> rw [e]
  · rfl
  · obtain ⟨-, -, q, -, rfl⟩ := takeHead_eq_some ht
    rfl

@[simp] theorem wireTransfer_cfg (s : State) : (wireTransfer s).cfg = s.cfg := by rw [wireTransfer_frame]
@[simp] theorem wireTransfer_dstate (s : State) : (wireTransfer s).dstate = s.dstate := by rw [wireTransfer_frame]
@[simp] theorem wireTransfer_log (s : State) : (wireTransfer s).log = s.log := by rw [wireTransfer_frame]
@[simp] theorem wireTransfer_resp (s : State) : (wireTransfer s).resp = s.resp := by rw [wireTransfer_frame]
@[simp] theorem wireTransfer_werr (s : State) : (wireTransfer s).werr = s.werr := by rw [wireTransfer_frame]
@[simp] theorem wireTransfer_agenda (s : State) : (wireTransfer s).agenda = s.agenda := by rw [wireTransfer_frame]

/-- The end of a drain writes only `dstate` and the history (R184). -/
theorem finishDrain_frame (s : State) :
    finishDrain s = { s with dstate := (finishDrain s).dstate, hist := (finishDrain s).hist } := by
  rcases finishDrain_cases s with ⟨-, -, e⟩ | ⟨-, e⟩ <;> rw [e]
  rfl

/-- An answer of the sink touches neither the queue nor the encoder nor the command port (R184, R185). -/
theorem respond_frame (a : Answer) (s : State) :
    respond a s = { s with dstate := (respond a s).dstate, inflight := (respond a s).inflight, log := (respond a s).log, hist := (respond a s).hist, werr := (respond a s).werr } := by
  rcases respond_cases a s with ⟨-, e⟩ | ⟨-, -, c, -, e⟩ | ⟨-, -, c, -, e⟩ <;> rw [e]
  · rw [finishDrain_frame]; rfl
  · rw [takeWriteError, finishDrain_frame]; rfl

@[simp] theorem respond_cfg (a : Answer) (s : State) : (respond a s).cfg = s.cfg := by rw [respond_frame]
@[simp] theorem respond_queue (a : Answer) (s : State) : (respond a s).queue = s.queue := by rw [respond_frame]
@[simp] theorem respond_enc (a : Answer) (s : State) : (respond a s).enc = s.enc := by rw [respond_frame]
@[simp] theorem respond_resp (a : Answer) (s : State) : (respond a s).resp = s.resp := by rw [respond_frame]
@[simp] theorem respond_agenda (a : Answer) (s : State) : (respond a s).agenda = s.agenda := by rw [respond_frame]
@[simp] theorem respond_draws (a : Answer) (s : State) : (respond a s).draws = s.draws := by rw [respond_frame]

/-- No operation of an agent writes the configuration (R27). -/
@[simp] theorem act_cfg (a : AgentStep) (s : State) : (act a s).cfg = s.cfg := by
  rcases act_cases a s with e | ⟨-, e⟩ | e | e | e | e | ⟨r, -, e⟩ <;> simp [e]

/-! ### One step -/

/-- With a move on the agenda, a step begins by taking it off. -/
theorem beginStep_eq_movedOn {s : State} {m : Move} {rest : List Move} (h : s.agenda = m :: rest) :
    beginStep s = movedOn rest s := by
  simp [beginStep, movedOn, h]

/-- A command on the agenda is decoded and executed (R65, R180). -/
theorem step_of_command {s : State} {p : CmdPort} {rest : List Move} (h : s.agenda = .command p :: rest) :
    step s = exec (decodePort p) (movedOn rest s) := by
  simp [step, nextMove, h, beginStep_eq_movedOn h]

/-- Another agent's move on the agenda is made (R180). -/
theorem step_of_agent {s : State} {a : AgentStep} {rest : List Move} (h : s.agenda = .agent a :: rest) :
    step s = .next (act a (movedOn rest s)) := by
  simp [step, nextMove, h, beginStep_eq_movedOn h]

/-- Every step answers a next state (R14, log 24). -/
theorem exists_step (s : State) : ∃ t, step s = .next t := by
  rcases step_answers_next s with ⟨-, e⟩ | ⟨p, -, e⟩ | ⟨a, -, e⟩ <;> exact ⟨_, e⟩

/-- No step writes the configuration (R27). -/
theorem step_cfg {s t : State} (h : step s = .next t) : t.cfg = s.cfg := by
  rcases step_answers_next s with ⟨-, e⟩ | ⟨p, -, e⟩ | ⟨a, -, e⟩ <;> rw [e] at h <;> cases h <;> simp

/-! ### Runs -/

theorem runSteps_zero (s : State) : runSteps 0 s = .next s := rfl

theorem runSteps_succ {s t : State} (n : Nat) (h : step s = .next t) : runSteps (n + 1) s = runSteps n t := by
  have hc : Sys2Proof.core.step s = .next t := h
  simp only [runSteps, Host.Core.run, hc]
  rfl

/-- The last step of a run, split off. -/
theorem runSteps_succ_last {n : Nat} {s t : State} (h : runSteps n s = .next t) : runSteps (n + 1) s = step t := by
  induction n generalizing s with
  | zero =>
    obtain rfl : s = t := Host.Outcome.next.inj h
    obtain ⟨u, hu⟩ := exists_step s
    rw [runSteps_succ 0 hu, runSteps_zero, hu]
  | succ n ih =>
    obtain ⟨u, hu⟩ := exists_step s
    rw [runSteps_succ n hu] at h
    rw [runSteps_succ (n + 1) hu, ih h]

/-- What every step keeps, every run keeps. -/
theorem runSteps_keeps {P : State → Prop} (keeps : ∀ s t, P s → step s = .next t → P t) {n : Nat} {s t : State} (hs : P s)
    (h : runSteps n s = .next t) : P t := by
  induction n generalizing s with
  | zero => cases h; exact hs
  | succ n ih =>
    obtain ⟨u, hu⟩ := exists_step s
    rw [runSteps_succ n hu] at h
    exact ih (keeps s u hs hu) h

end Sys2Proof.Machine

/-! SUPPORT. The invariants I1 to I7 (R34), the order of delivery (R188) and the alternation of writes and answers (R71): each operation keeps
them, and so does every step. -/

namespace Sys2Proof.Machine

theorem cmdReset_valid : cmdReset.valid = true := by decide

theorem State.full_eq_false (s : State) : s.full = false ↔ s.queue.length < s.cfg.qdepth := by
  simp [State.full]

/-- The states in which the consumer is at work are neither `Created` nor `Stopped` (R180). -/
theorem DState.ne_of_at_work {d : DState} (h : d = .running ∨ d = .draining) : d ≠ .created ∧ d ≠ .stopped := by
  rcases h with rfl | rfl <;> simp

/-! ### I1 to I7 -/

/-- I1 to I7 speak of the state only through these seven readings of it. -/
theorem Inv.of_same {s t : State} (hs : Inv s) (hcfg : t.cfg = s.cfg) (hd : t.dstate = s.dstate) (hq : t.queue = s.queue)
    (hf : t.inflight = s.inflight) (hl : t.log = s.log) (hi : issuedIn t.hist = issuedIn s.hist)
    (ha : answersIn t.hist = answersIn s.hist) : Inv t := by
  obtain ⟨h1, h2, h2', h3, h4, h5, h6, h7⟩ := hs
  constructor <;> simp only [hcfg, hd, hq, hf, hl, hi, ha] <;> assumption

theorem inv_beginStep {s : State} (hs : Inv s) : Inv (beginStep s) := hs.of_same rfl rfl rfl rfl rfl rfl rfl

theorem inv_resetWith (cfg : Config) : Inv (State.resetWith cfg) := by
  constructor <;> simp [State.resetWith, issuedIn, answersIn]

theorem inv_hardwareReset (s : State) : Inv (hardwareReset s) :=
  (inv_resetWith s.cfg).of_same rfl rfl rfl rfl rfl rfl rfl

/-- A valid command appended where there is room (R182). -/
theorem inv_accept {s : State} {c : Command} (hs : Inv s) (hd : s.dstate = .running) (hv : c.valid = true) (hf : s.full = false) :
    Inv (accept c s) where
  withinCapacity := by simpa using (State.full_eq_false s).1 hf
  queueValid := by simpa [or_imp, forall_and, hv] using hs.queueValid
  inflightValid := hs.inflightValid
  createdEmpty := by simp [hd]
  stoppedEmpty := by simp [hd]
  drainingBusy := by simp [hd]
  writesAnswered := by simpa [issuedIn, answersIn] using hs.writesAnswered
  failuresLogged := by simpa [answersIn] using hs.failuresLogged

theorem inv_enqueue (c : Command) {s : State} (hs : Inv s) : Inv (enqueue c s) := by
  have refuses (code : RefusalCode) : Inv (refuse c code s) := hs.of_same rfl rfl rfl rfl rfl (by simp [issuedIn]) (by simp [answersIn])
  have holds : Inv (hold s) := hs.of_same rfl rfl rfl rfl rfl rfl rfl
  rcases enqueue_cases c s with ⟨-, e⟩ | ⟨-, e⟩ | ⟨-, -, e⟩ | ⟨hd, hv, hf, e⟩ | ⟨-, -, -, -, e⟩ | ⟨-, -, -, -, e⟩ <;> rw [e]
  · exact holds
  · exact refuses _
  · exact refuses _
  · exact inv_accept hs hd hv hf
  · exact refuses _
  · exact holds

/-- START queues one command; `QDEPTH >= 1` makes room for it (R6, R181). -/
theorem inv_start {s : State} (hs : Inv s) : Inv (start s) := by
  rcases start_cases s with ⟨hd, e⟩ | ⟨-, e⟩ <;> rw [e]
  · obtain ⟨hq, hf, hl⟩ := hs.createdEmpty hd
    exact {
      withinCapacity := by simpa [hq] using s.cfg.qdepth_pos
      queueValid := by simp [hq, cmdReset_valid]
      inflightValid := by simp [hf]
      createdEmpty := by simp
      stoppedEmpty := by simp
      drainingBusy := by simp
      writesAnswered := by simpa [issuedIn, answersIn] using hs.writesAnswered
      failuresLogged := by simpa [answersIn] using hs.failuresLogged }
  · exact hs

/-- CLOSE changes `dstate` alone; what remains is I3 to I5 in the new one (R186). -/
theorem inv_close {s : State} (hs : Inv s) : Inv (close s) := by
  have rest (hc : (close s).dstate ≠ .created) (hst : (close s).dstate = .stopped → s.queue = [] ∧ s.inflight = none)
      (hdr : (close s).dstate = .draining → s.queue ≠ [] ∨ s.inflight ≠ none)
      (hi : issuedIn (close s).hist = issuedIn s.hist) (ha : answersIn (close s).hist = answersIn s.hist) : Inv (close s) :=
    { withinCapacity := by simpa using hs.withinCapacity
      queueValid := by simpa using hs.queueValid
      inflightValid := by simpa using hs.inflightValid
      createdEmpty := fun h => absurd h hc
      stoppedEmpty := by simpa using hst
      drainingBusy := by simpa using hdr
      writesAnswered := by simpa [hi, ha] using hs.writesAnswered
      failuresLogged := by simpa [ha] using hs.failuresLogged }
  rcases close_cases s with ⟨hd, e⟩ | ⟨hd, hq, hf, e⟩ | ⟨hd, hb, e⟩ | ⟨-, e⟩
  · obtain ⟨hq, hf, -⟩ := hs.createdEmpty hd
    apply rest <;> simp [e, hq, hf, issuedIn, answersIn]
  · apply rest <;> simp [e, hq, hf, issuedIn, answersIn]
  · apply rest <;> simp [e, issuedIn, answersIn]
    simpa [imp_iff_not_or] using hb
  · rw [e]
    exact hs

/-- Taking the head puts a queued command in flight and issues one frame (R183). -/
theorem inv_takeHead {s t : State} {c : Command} (hs : Inv s) (h : takeHead s = some (c, t)) : Inv t := by
  obtain ⟨hd, hf, q, hq, rfl⟩ := takeHead_eq_some h
  have hcap := hs.withinCapacity
  have hval := hs.queueValid
  simp only [hq, List.length_cons, List.mem_cons, forall_eq_or_imp] at hcap hval
  obtain ⟨hc, hrest⟩ := hval
  obtain ⟨hnc, hns⟩ := DState.ne_of_at_work hd
  exact {
    withinCapacity := by simp only; omega
    queueValid := hrest
    inflightValid := by simpa using hc
    createdEmpty := fun h => absurd h hnc
    stoppedEmpty := fun h => absurd h hns
    drainingBusy := by simp
    writesAnswered := by simpa [issuedIn, answersIn, hf] using hs.writesAnswered
    failuresLogged := by simpa [answersIn] using hs.failuresLogged }

theorem inv_dispatch {s : State} (hs : Inv s) : Inv (dispatch s) := by
  rcases dispatch_cases s with ⟨-, e⟩ | ⟨c, t, ht, e⟩ <;> rw [e]
  · exact hs
  · exact (inv_takeHead hs ht).of_same rfl rfl rfl rfl rfl rfl rfl

theorem inv_wireTransfer {s : State} (hs : Inv s) : Inv (wireTransfer s) := by
  rcases wireTransfer_cases s with ⟨-, -, e⟩ | ⟨-, -, e⟩ | ⟨-, -, e⟩ | ⟨-, c, t, ht, e⟩ <;> rw [e]
  · exact hs.of_same rfl rfl rfl rfl rfl rfl rfl
  · exact hs.of_same rfl rfl rfl rfl rfl rfl rfl
  · exact hs
  · exact (inv_takeHead hs ht).of_same rfl rfl rfl rfl rfl rfl rfl

/-- The end of a COMPLETE step restores I5: a drain with nothing left stops (R184, R185). -/
theorem inv_finishDrain {s : State} (hf : s.inflight = none) (hat : s.dstate = .running ∨ s.dstate = .draining)
    (hcap : s.queue.length ≤ s.cfg.qdepth) (hval : ∀ c ∈ s.queue, c.valid = true)
    (hw : (issuedIn s.hist).length = (answersIn s.hist).length) (hl : s.log.length = (answersIn s.hist).count .error) :
    Inv (finishDrain s) := by
  obtain ⟨hnc, hns⟩ := DState.ne_of_at_work hat
  rcases finishDrain_cases s with ⟨-, hq, e⟩ | ⟨hn, e⟩ <;> rw [e]
  · exact {
      withinCapacity := hcap
      queueValid := hval
      inflightValid := by simp [hf]
      createdEmpty := by simp
      stoppedEmpty := by simp [hq, hf]
      drainingBusy := by simp
      writesAnswered := by simpa [issuedIn, answersIn, hf] using hw
      failuresLogged := by simpa [answersIn] using hl }
  · exact {
      withinCapacity := hcap
      queueValid := hval
      inflightValid := by simp [hf]
      createdEmpty := fun h => absurd h hnc
      stoppedEmpty := fun h => absurd h hns
      drainingBusy := fun h => .inl fun hq => hn ⟨h, hq⟩
      writesAnswered := by simpa [hf] using hw
      failuresLogged := hl }

/-- A write is outstanding in `Running` and `Draining` only. -/
theorem Inv.running_or_draining {s : State} (hs : Inv s) {c : Command} (hf : s.inflight = some c) :
    s.dstate = .running ∨ s.dstate = .draining := by
  cases hd : s.dstate with
  | created => have := hs.createdEmpty hd; simp [hf] at this
  | running => exact .inl rfl
  | draining => exact .inr rfl
  | stopped => have := hs.stoppedEmpty hd; simp [hf] at this

theorem inv_respond (a : Answer) {s : State} (hs : Inv s) : Inv (respond a s) := by
  have hw := hs.writesAnswered
  have hl := hs.failuresLogged
  rcases respond_cases a s with ⟨-, e⟩ | ⟨-, -, c, hf, e⟩ | ⟨-, -, c, hf, e⟩ <;> rw [e]
  · exact hs
  · refine inv_finishDrain rfl (hs.running_or_draining hf) hs.withinCapacity hs.queueValid ?_ ?_
    · simpa [issuedIn, answersIn, hf] using hw
    · simpa [answersIn] using hl
  · refine inv_finishDrain rfl (hs.running_or_draining hf) hs.withinCapacity hs.queueValid ?_ ?_
    · simpa [issuedIn, answersIn, hf] using hw
    · simpa [answersIn] using hl

theorem step_keeps_inv {s t : State} (hs : Inv s) (h : step s = .next t) : Inv t :=
  step_keeps (P := Inv) (fun _ => inv_beginStep) (fun c _ => inv_enqueue c) (fun s _ => inv_hardwareReset s) (fun _ => inv_start)
    (fun _ => inv_close) (fun _ => inv_dispatch) (fun _ => inv_wireTransfer) (fun a _ => inv_respond a) hs h

/-! ### The order of delivery -/

/-- Events other than `Started`, `Accepted` and `Issued` do not bear on the order of delivery. -/
def quiet (es : List Event) : Prop := Event.started ∉ es ∧ acceptedIn es = [] ∧ issuedIn es = []

/-- The order of delivery survives quiet events, with the queue as it was, where `dstate` does not re-enter an earlier state. -/
theorem Ordered.of_quiet {s t : State} (hs : Ordered s) {es : List Event} (hes : quiet es) (hh : t.hist = s.hist ++ es)
    (hq : t.queue = s.queue) (hc : t.dstate = .created → s.dstate = .created ∧ es = [] ∧ t.inflight = s.inflight)
    (hb : t.dstate = .running ∨ t.dstate = .draining → s.dstate = .running ∨ s.dstate = .draining) : Ordered t := by
  obtain ⟨hst, hac, his⟩ := hes
  constructor
  case createdFresh =>
    intro h
    obtain ⟨hd, rfl, hf⟩ := hc h
    simpa [hh, hq, hf] using hs.createdFresh hd
  case begun => intro h; simp [hh, hs.begun (hb h)]
  case silent => simpa [hh, hq, hst, hac, his] using hs.silent
  case inOrder => simpa [hh, hq, hst, hac, his, submittedIn] using hs.inOrder

theorem quiet_nil : quiet [] := by simp [quiet, acceptedIn, issuedIn]

/-- The order of delivery speaks of the state only through these four readings of it. -/
theorem Ordered.of_same {s t : State} (hs : Ordered s) (hh : t.hist = s.hist) (hq : t.queue = s.queue) (hd : t.dstate = s.dstate)
    (hf : t.inflight = s.inflight) : Ordered t :=
  hs.of_quiet quiet_nil (by simp [hh]) hq (fun h => ⟨hd ▸ h, rfl, hf⟩) (fun h => hd ▸ h)

theorem ordered_resetWith (cfg : Config) : Ordered (State.resetWith cfg) := by
  constructor <;> simp [State.resetWith, acceptedIn, issuedIn]

theorem ordered_accept {s : State} {c : Command} (hs : Ordered s) (hd : s.dstate = .running) : Ordered (accept c s) := by
  have hst := hs.begun (.inl hd)
  exact {
    createdFresh := by simp [hd]
    begun := by simp [hst]
    silent := by simp [hst]
    inOrder := fun _ => by simp [issuedIn, acceptedIn, submittedIn, ← List.append_assoc, hs.inOrder hst] }

theorem ordered_enqueue (c : Command) {s : State} (hs : Ordered s) : Ordered (enqueue c s) := by
  have refuses (code : RefusalCode) (hd : s.dstate ≠ .created) : Ordered (refuse c code s) :=
    hs.of_quiet (es := [.refused c code]) (by simp [quiet, acceptedIn, issuedIn]) rfl rfl (fun h => absurd h hd) id
  have holds : Ordered (hold s) := hs.of_same rfl rfl rfl rfl
  rcases enqueue_cases c s with ⟨-, e⟩ | ⟨hd, e⟩ | ⟨hd, -, e⟩ | ⟨hd, -, -, e⟩ | ⟨hd, -, -, -, e⟩ | ⟨-, -, -, -, e⟩ <;> rw [e]
  · exact holds
  · exact refuses _ (by rcases hd with hd | hd <;> simp [hd])
  · exact refuses _ (by simp [hd])
  · exact ordered_accept hs hd
  · exact refuses _ (by simp [hd])
  · exact holds

theorem ordered_start {s : State} (hs : Ordered s) : Ordered (start s) := by
  rcases start_cases s with ⟨hd, e⟩ | ⟨-, e⟩ <;> rw [e]
  · obtain ⟨hh, hq, -⟩ := hs.createdFresh hd
    constructor <;> simp [hh, hq, issuedIn, acceptedIn, submittedIn]
  · exact hs

theorem ordered_close {s : State} (hs : Ordered s) : Ordered (close s) := by
  rcases close_cases s with ⟨hd, e⟩ | ⟨hd, -, -, e⟩ | ⟨hd, -, e⟩ | ⟨-, e⟩ <;> rw [e]
  · exact hs.of_quiet (es := [.closeRequested, .stopped]) (by simp [quiet, acceptedIn, issuedIn]) (by simp) rfl (by simp) (by simp)
  · exact hs.of_quiet (es := [.closeRequested, .stopped]) (by simp [quiet, acceptedIn, issuedIn]) (by simp) rfl (by simp) (by simp)
  · exact hs.of_quiet (es := [.closeRequested]) (by simp [quiet, acceptedIn, issuedIn]) rfl rfl (by simp) (by simp [hd])
  · exact hs

/-- The head moves from the queue to the end of the issued frames (R183). -/
theorem ordered_takeHead {s t : State} {c : Command} (hs : Ordered s) (h : takeHead s = some (c, t)) : Ordered t := by
  obtain ⟨hd, -, q, hq, rfl⟩ := takeHead_eq_some h
  have hst := hs.begun hd
  have hord := hs.inOrder hst
  exact {
    createdFresh := fun h => absurd h (DState.ne_of_at_work hd).1
    begun := by simp [hst]
    silent := by simp [hst]
    inOrder := fun _ => by simpa [issuedIn, acceptedIn, submittedIn, hq] using hord }

theorem ordered_dispatch {s : State} (hs : Ordered s) : Ordered (dispatch s) := by
  rcases dispatch_cases s with ⟨-, e⟩ | ⟨c, t, ht, e⟩ <;> rw [e]
  · exact hs
  · exact (ordered_takeHead hs ht).of_same rfl rfl rfl rfl

theorem ordered_wireTransfer {s : State} (hs : Ordered s) : Ordered (wireTransfer s) := by
  rcases wireTransfer_cases s with ⟨-, -, e⟩ | ⟨-, -, e⟩ | ⟨-, -, e⟩ | ⟨-, c, t, ht, e⟩ <;> rw [e]
  · exact hs.of_same rfl rfl rfl rfl
  · exact hs.of_same rfl rfl rfl rfl
  · exact hs
  · exact (ordered_takeHead hs ht).of_same rfl rfl rfl rfl

theorem ordered_finishDrain {s : State} (hs : Ordered s) : Ordered (finishDrain s) := by
  rcases finishDrain_cases s with ⟨hd, -, e⟩ | ⟨-, e⟩ <;> rw [e]
  · exact hs.of_quiet (es := [.stopped]) (by simp [quiet, acceptedIn, issuedIn]) rfl rfl (by simp) (by simp)
  · exact hs

theorem ordered_respond (a : Answer) {s : State} (hs : Ordered s) : Ordered (respond a s) := by
  have created {c : Command} (hf : s.inflight = some c) : s.dstate ≠ .created := fun hd => by
    simpa [hf] using hs.createdFresh hd
  have completed : quiet [.completed a] := by simp [quiet, acceptedIn, issuedIn]
  rcases respond_cases a s with ⟨-, e⟩ | ⟨-, rfl, c, hf, e⟩ | ⟨-, rfl, c, hf, e⟩ <;> rw [e]
  · exact hs
  · exact ordered_finishDrain (hs.of_quiet completed rfl rfl (fun hd => absurd hd (created hf)) id)
  · exact ordered_finishDrain (hs.of_quiet completed rfl rfl (fun hd => absurd hd (created hf)) id)

theorem step_keeps_ordered {s t : State} (hs : Ordered s) (h : step s = .next t) : Ordered t :=
  step_keeps (P := Ordered) (fun _ hs => hs.of_same rfl rfl rfl rfl) (fun c _ => ordered_enqueue c)
    (fun s _ => (ordered_resetWith s.cfg).of_same rfl rfl rfl rfl) (fun _ => ordered_start)
    (fun _ => ordered_close) (fun _ => ordered_dispatch) (fun _ => ordered_wireTransfer) (fun a _ => ordered_respond a) hs h

/-- What has been issued is the submission order, cut off (R188). -/
theorem Ordered.issued_eq_take {s : State} (hs : Ordered s) :
    issuedIn s.hist = ((submittedIn s.hist).take (issuedIn s.hist).length).map encodeCommand := by
  by_cases hst : Event.started ∈ s.hist
  · rw [List.map_take, ← hs.inOrder hst, List.take_left]
  · simp [(hs.silent hst).2.1]

/-! ### One write outstanding -/

/-- The alternation survives events that do not concern the wire. -/
theorem OneWriteOutstanding.of_unread {s t : State} (hs : OneWriteOutstanding s) {es : List Event} (hh : t.hist = s.hist ++ es)
    (hes : ∀ out, wireAlternates out es = some out) (hf : t.inflight = s.inflight) : OneWriteOutstanding t := by
  unfold OneWriteOutstanding at *
  simp [hh, hf, wireAlternates_append, hs, hes]

theorem oneWrite_enqueue (c : Command) {s : State} (hs : OneWriteOutstanding s) : OneWriteOutstanding (enqueue c s) := by
  have refuses (code : RefusalCode) : OneWriteOutstanding (refuse c code s) := hs.of_unread rfl (fun _ => rfl) rfl
  rcases enqueue_cases c s with ⟨-, e⟩ | ⟨-, e⟩ | ⟨-, -, e⟩ | ⟨-, -, -, e⟩ | ⟨-, -, -, -, e⟩ | ⟨-, -, -, -, e⟩ <;> rw [e]
  · exact hs
  · exact refuses _
  · exact refuses _
  · exact hs.of_unread rfl (fun _ => rfl) rfl
  · exact refuses _
  · exact hs

theorem oneWrite_start {s : State} (hs : OneWriteOutstanding s) : OneWriteOutstanding (start s) := by
  rcases start_cases s with ⟨-, e⟩ | ⟨-, e⟩ <;> rw [e]
  · exact hs.of_unread rfl (fun _ => rfl) rfl
  · exact hs

theorem oneWrite_close {s : State} (hs : OneWriteOutstanding s) : OneWriteOutstanding (close s) := by
  rcases close_cases s with ⟨-, e⟩ | ⟨-, -, -, e⟩ | ⟨-, -, e⟩ | ⟨-, e⟩ <;> rw [e]
  · exact hs.of_unread (es := [.closeRequested, .stopped]) (by simp) (fun _ => rfl) rfl
  · exact hs.of_unread (es := [.closeRequested, .stopped]) (by simp) (fun _ => rfl) rfl
  · exact hs.of_unread rfl (fun _ => rfl) rfl
  · exact hs

/-- DISPATCH waits for the write outstanding, so its frame follows an answer (R71, R183). -/
theorem oneWrite_takeHead {s t : State} {c : Command} (hs : OneWriteOutstanding s) (h : takeHead s = some (c, t)) :
    OneWriteOutstanding t := by
  obtain ⟨-, hf, q, -, rfl⟩ := takeHead_eq_some h
  unfold OneWriteOutstanding at *
  simp [wireAlternates_append, hs, hf, wireAlternates]

theorem oneWrite_dispatch {s : State} (hs : OneWriteOutstanding s) : OneWriteOutstanding (dispatch s) := by
  rcases dispatch_cases s with ⟨-, e⟩ | ⟨c, t, ht, e⟩ <;> rw [e]
  · exact hs
  · exact (oneWrite_takeHead hs ht).of_unread (es := []) (by simp) (fun _ => rfl) rfl

theorem oneWrite_wireTransfer {s : State} (hs : OneWriteOutstanding s) : OneWriteOutstanding (wireTransfer s) := by
  rcases wireTransfer_cases s with ⟨-, -, e⟩ | ⟨-, -, e⟩ | ⟨-, -, e⟩ | ⟨-, c, t, ht, e⟩ <;> rw [e]
  · exact hs
  · exact hs
  · exact hs
  · exact (oneWrite_takeHead hs ht).of_unread (es := []) (by simp) (fun _ => rfl) rfl

theorem oneWrite_finishDrain {s : State} (hs : OneWriteOutstanding s) : OneWriteOutstanding (finishDrain s) := by
  rcases finishDrain_cases s with ⟨-, -, e⟩ | ⟨-, e⟩ <;> rw [e]
  · exact hs.of_unread rfl (fun _ => rfl) rfl
  · exact hs

/-- An answer is recorded only where a write is outstanding (R71, R220). -/
theorem oneWrite_respond (a : Answer) {s : State} (hs : OneWriteOutstanding s) : OneWriteOutstanding (respond a s) := by
  have answered {c : Command} (hf : s.inflight = some c) : wireAlternates false (s.hist ++ [.completed a]) = some false := by
    unfold OneWriteOutstanding at hs
    simp [wireAlternates_append, hs, hf, wireAlternates]
  rcases respond_cases a s with ⟨-, e⟩ | ⟨-, rfl, c, hf, e⟩ | ⟨-, rfl, c, hf, e⟩ <;> rw [e]
  · exact hs
  · exact oneWrite_finishDrain (answered hf)
  · exact oneWrite_finishDrain (answered hf)

theorem oneWrite_resetWith (cfg : Config) : OneWriteOutstanding (State.resetWith cfg) := rfl

theorem step_keeps_oneWrite {s t : State} (hs : OneWriteOutstanding s) (h : step s = .next t) : OneWriteOutstanding t :=
  step_keeps (P := OneWriteOutstanding) (fun _ => id) (fun c _ => oneWrite_enqueue c) (fun s _ => oneWrite_resetWith s.cfg) (fun _ => oneWrite_start)
    (fun _ => oneWrite_close) (fun _ => oneWrite_dispatch) (fun _ => oneWrite_wireTransfer) (fun a _ => oneWrite_respond a) hs h

end Sys2Proof.Machine

/-! SUPPORT. The byte-serial encoder (R29, R138): where it stands in a frame, and what one advance does; then every step keeps it inside its
frame, and the transfers of the wire port move it. -/

namespace Sys2Proof.Machine

/-! ### One advance of the encoder -/

@[simp] theorem Encoder.advance_cur (e : Encoder) : e.advance.cur = e.cur := rfl
@[simp] theorem Encoder.advance_idx (e : Encoder) : e.advance.idx = e.idx + 1 := rfl
@[simp] theorem Encoder.advance_sending (e : Encoder) : e.advance.sending = !e.last := rfl

theorem Encoder.last_iff (e : Encoder) : e.last = true ↔ e.idx.toNat = e.cur.payload.bytes.length + 3 := by
  simp [Encoder.last]

theorem Encoder.last_eq_false_iff (e : Encoder) : e.last = false ↔ e.idx.toNat ≠ e.cur.payload.bytes.length + 3 := by
  simp [Encoder.last]

/-- From the second index on, the header and the length byte are out (R138). -/
theorem Encoder.byte_of_two_le {e : Encoder} (h : 2 ≤ e.idx.toNat) :
    e.byte = if h : e.idx.toNat - 2 < e.cur.payload.bytes.length then e.cur.payload.bytes[e.idx.toNat - 2]
      else if e.idx.toNat = e.cur.payload.bytes.length + 2 then hi8 e.crc else lo8 e.crc := by
  have h0 : e.idx ≠ 0 := fun h' => by simp [h'] at h
  have h1 : e.idx ≠ 1 := fun h' => by simp [h'] at h
  rw [Encoder.byte, if_neg h0, if_neg h1]

theorem Encoder.byte_payload {e : Encoder} (h : 2 ≤ e.idx.toNat) (hn : e.idx.toNat - 2 < e.cur.payload.bytes.length) :
    e.byte = e.cur.payload.bytes[e.idx.toNat - 2] := by
  rw [Encoder.byte_of_two_le h, dif_pos hn]

/-- Payload bytes, and only they, pass through the checksum (R138). -/
theorem Encoder.advance_crc (e : Encoder) :
    e.advance.crc = if 2 ≤ e.idx.toNat ∧ e.idx.toNat ≤ e.cur.payload.bytes.length + 1
      then crcFrom e.crc [e.cur.payload.bytes.getD (e.idx.toNat - 2) 0] else e.crc := by
  show (if 2 ≤ e.idx.toNat ∧ e.idx.toNat < e.cur.payload.bytes.length + 2 then crcByte e.crc e.byte else e.crc) = _
  by_cases h : 2 ≤ e.idx.toNat ∧ e.idx.toNat ≤ e.cur.payload.bytes.length + 1
  · obtain ⟨h2, hn⟩ := h
    have hk : e.idx.toNat - 2 < e.cur.payload.bytes.length := by omega
    rw [if_pos ⟨h2, by omega⟩, if_pos ⟨h2, hn⟩, Encoder.byte_payload h2 hk]
    simp [hk]
  · rw [if_neg h, if_neg (by omega)]

/-! ### Where the encoder stands -/

/-- The encoder is at byte `k` of the frame of `c`, with the checksum of the payload bytes before it (R138). -/
structure Encoder.StandsAt (c : Command) (k : Nat) (e : Encoder) : Prop where
  cur : e.cur = c
  idx : e.idx.toNat = k
  crc : e.crc = crc16 (c.payload.bytes.take (k - 2))

theorem Encoder.standsAt_load (c : Command) : (Encoder.load c).StandsAt c 0 := ⟨rfl, rfl, rfl⟩

/-- The checksum of one more payload byte (R131). -/
theorem crc16_take_succ {bytes : List Byte} {k : Nat} (h : k < bytes.length) :
    crc16 (bytes.take (k + 1)) = crcFrom (crc16 (bytes.take k)) [bytes.getD k 0] := by
  rw [crc16, List.take_succ_eq_append_getElem h, crcFrom_append, crc16]
  simp [h]

theorem Encoder.StandsAt.advance {c : Command} {k : Nat} {e : Encoder} (he : e.StandsAt c k)
    (hk : k ≤ c.payload.bytes.length + 3) : e.advance.StandsAt c (k + 1) := by
  obtain ⟨rfl, rfl, hcrc⟩ := he
  have hbound := e.cur.payload.bound
  refine ⟨rfl, ?_, ?_⟩
  · rw [Encoder.advance_idx]
    bv_omega
  · rw [Encoder.advance_crc, hcrc]
    split
    case isTrue h =>
      rw [show e.idx.toNat + 1 - 2 = e.idx.toNat - 2 + 1 by omega, crc16_take_succ (by omega)]
    case isFalse h =>
      by_cases h2 : 2 ≤ e.idx.toNat
      · rw [List.take_of_length_le (by omega), List.take_of_length_le (by omega)]
      · rw [show e.idx.toNat - 2 = 0 by omega, show e.idx.toNat + 1 - 2 = 0 by omega]

/-- The encoder in its frame emits the frame's own byte (R138). -/
theorem Encoder.StandsAt.byte {c : Command} {k : Nat} {e : Encoder} (he : e.StandsAt c k)
    (hk : k ≤ c.payload.bytes.length + 3) : (encodeCommand c)[k]? = some e.byte := by
  obtain ⟨rfl, rfl, hcrc⟩ := he
  by_cases h0 : e.idx = 0
  · simp [Encoder.byte, h0, encodeCommand]
  by_cases h1 : e.idx = 1
  · simp [Encoder.byte, h1, encodeCommand]
  have h2 : 2 ≤ e.idx.toNat := by bv_omega
  obtain ⟨j, hj⟩ := Nat.exists_eq_add_of_le' h2
  rw [Encoder.byte_of_two_le h2]
  simp only [hj, Nat.add_sub_cancel] at hcrc hk ⊢
  simp only [encodeCommand, List.getElem?_cons_succ]
  split
  case isTrue hp => rw [List.getElem?_append_left hp, List.getElem?_eq_getElem hp]
  case isFalse hp =>
    rw [List.take_of_length_le (by omega)] at hcrc
    rw [List.getElem?_append_right (by omega), hcrc]
    obtain hj | hj : j = e.cur.payload.bytes.length ∨ j = e.cur.payload.bytes.length + 1 := by omega
    · simp [hj]
    · simp [hj]

theorem Encoder.StandsAt.last {c : Command} {k : Nat} {e : Encoder} (he : e.StandsAt c k) :
    e.last = (k == c.payload.bytes.length + 3) := by
  rw [Encoder.last, he.cur, he.idx]

/-! ### The encoder stays in its frame -/

theorem encoderInFrame_of_not_sending {s : State} (h : s.enc.sending = false) : EncoderInFrame s := fun h' => by
  simp [h] at h'

theorem EncoderInFrame.of_same {s t : State} (hs : EncoderInFrame s) (he : t.enc = s.enc) (hf : t.inflight = s.inflight) :
    EncoderInFrame t := by
  unfold EncoderInFrame at *
  rwa [he, hf]

/-- An encoder standing after byte 0 and not after the last, on the command in flight, is in its frame. -/
theorem encoderInFrame_of_standsAt {s : State} {c : Command} {k : Nat} (hf : s.inflight = some c) (he : s.enc.StandsAt c k)
    (h1 : 1 ≤ k) (hk : k ≤ c.payload.bytes.length + 3) : EncoderInFrame s := fun _ => by
  obtain ⟨rfl, rfl, hcrc⟩ := he
  exact ⟨hf, h1, hk, hcrc⟩

theorem encoderInFrame_dispatch {s : State} (hs : EncoderInFrame s) : EncoderInFrame (dispatch s) := by
  rcases dispatch_cases s with ⟨-, e⟩ | ⟨c, t, -, e⟩ <;> rw [e]
  · exact hs
  · exact encoderInFrame_of_not_sending rfl

/-- A transfer starts a frame, moves inside it, or ends it (R138). -/
theorem encoderInFrame_wireTransfer {s : State} (hs : EncoderInFrame s) : EncoderInFrame (wireTransfer s) := by
  rcases wireTransfer_cases s with ⟨-, -, e⟩ | ⟨hsend, hl, e⟩ | ⟨-, -, e⟩ | ⟨-, c, t, ht, e⟩ <;> rw [e]
  · exact encoderInFrame_of_not_sending rfl
  · obtain ⟨hf, -, hk, hcrc⟩ := hs hsend
    rw [Encoder.last_eq_false_iff] at hl
    have he : s.enc.StandsAt s.enc.cur s.enc.idx.toNat := ⟨rfl, rfl, hcrc⟩
    exact encoderInFrame_of_standsAt hf (he.advance hk) (by omega) (by omega)
  · exact hs
  · obtain ⟨-, -, q, -, rfl⟩ := takeHead_eq_some ht
    exact encoderInFrame_of_standsAt rfl ((Encoder.standsAt_load c).advance (by omega)) (by omega) (by omega)

/-- An answer is ignored while a frame is part way out (R223). -/
theorem respond_of_sending (a : Answer) {s : State} (h : s.enc.sending = true) : respond a s = s := if_pos h

theorem encoderInFrame_respond (a : Answer) {s : State} (hs : EncoderInFrame s) : EncoderInFrame (respond a s) := by
  cases hsend : s.enc.sending with
  | true =>
    rwa [respond_of_sending a hsend]
  | false => exact encoderInFrame_of_not_sending (by simpa using hsend)

theorem encoderInFrame_resetWith (cfg : Config) : EncoderInFrame (State.resetWith cfg) := encoderInFrame_of_not_sending rfl

theorem step_keeps_encoderInFrame {s t : State} (hs : EncoderInFrame s) (h : step s = .next t) : EncoderInFrame t :=
  step_keeps (P := EncoderInFrame) (fun _ hs => hs.of_same rfl rfl) (fun c _ hs => hs.of_same (by simp) (by simp))
    (fun s _ => (encoderInFrame_resetWith s.cfg).of_same rfl rfl) (fun _ hs => hs.of_same (by simp) (by simp))
    (fun _ hs => hs.of_same (by simp) (by simp)) (fun _ => encoderInFrame_dispatch) (fun _ => encoderInFrame_wireTransfer)
    (fun a _ => encoderInFrame_respond a) hs h

/-! ### One transfer on the wire port, as a step -/

/-- Where a transfer is not the last of a frame part way out, the encoder alone moves on. -/
theorem step_wireTransfer_advance {s : State} {rest : List Move} (ha : s.agenda = .agent .wireTransfer :: rest)
    (hs : s.enc.sending = true) (hl : s.enc.last = false) : step s = .next { movedOn rest s with enc := s.enc.advance } := by
  rw [step_of_agent ha]
  simp [act, wireTransfer, movedOn, hs, hl]

/-- With the last byte the encoder goes out of use. -/
theorem step_wireTransfer_last {s : State} {rest : List Move} (ha : s.agenda = .agent .wireTransfer :: rest)
    (hs : s.enc.sending = true) (hl : s.enc.last = true) : step s = .next (restEncoder (movedOn rest s)) := by
  rw [step_of_agent ha]
  simp [act, wireTransfer, movedOn, hs, hl]

/-- The state after the transfer of byte 0 of the head's frame and some more bytes, but for the encoder. -/
def afterFirstByte (s : State) (c : Command) (q : List Command) (rest : List Move) (e : Encoder) : State :=
  { movedOn rest s with queue := q, inflight := some c, hist := s.hist ++ [.issued (encodeCommand c)], enc := e }

/-- The transfer of byte 0 is DISPATCH, with the encoder one byte on. -/
theorem step_wireTransfer_first {s : State} {rest : List Move} {c : Command} {q : List Command}
    (ha : s.agenda = .agent .wireTransfer :: rest) (hs : s.enc.sending = false) (hd : s.dstate = .running ∨ s.dstate = .draining)
    (hf : s.inflight = none) (hq : s.queue = c :: q) :
    step s = .next (afterFirstByte s c q rest (Encoder.load c).advance) := by
  rw [step_of_agent ha, act, wireTransfer, takeHead_of_enabled (s := movedOn rest s) hd hf hq]
  simp [afterFirstByte, movedOn, hs]

/-- Where neither a frame is part way out nor DISPATCH enabled, a transfer is nothing. -/
theorem step_wireTransfer_idle {s : State} {rest : List Move} (ha : s.agenda = .agent .wireTransfer :: rest)
    (hs : s.enc.sending = false) (hn : s.dstate = .created ∨ s.dstate = .stopped ∨ s.inflight ≠ none ∨ s.queue = []) :
    step s = .next (movedOn rest s) := by
  rw [step_of_agent ha, act, wireTransfer, takeHead_of_not_enabled (s := movedOn rest s) hn]
  simp [movedOn, hs]

/-- `m` transfers inside a frame: the encoder moves on by `m` bytes, and nothing else happens. -/
theorem runSteps_wireTransfers {m k : Nat} {c : Command} {rest : List Move} {s : State}
    (ha : s.agenda = List.replicate m (.agent .wireTransfer) ++ rest) (hresp : s.resp = none) (hwerr : s.werr = false)
    (hs : s.enc.sending = true) (he : s.enc.StandsAt c k) (hk : k + m ≤ c.payload.bytes.length + 3) :
    ∃ e : Encoder, runSteps m s = .next { s with agenda := rest, enc := e } ∧ e.sending = true ∧ e.StandsAt c (k + m) := by
  induction m generalizing k s with
  | zero =>
    refine ⟨s.enc, ?_, hs, he⟩
    simp only [List.replicate_zero, List.nil_append] at ha
    rw [runSteps_zero, ← ha]
  | succ m ih =>
    have hl : s.enc.last = false := by
      rw [he.last, beq_eq_false_iff_ne]
      omega
    have hstep := step_wireTransfer_advance (rest := List.replicate m (.agent .wireTransfer) ++ rest) ha hs hl
    obtain ⟨e, hrun, hes, hat⟩ := ih (k := k + 1) (s := { movedOn _ s with enc := s.enc.advance }) rfl rfl rfl (by simp [hl])
      (he.advance (by omega)) (by omega)
    refine ⟨e, ?_, hes, by rwa [show k + (m + 1) = k + 1 + m by omega]⟩
    rw [runSteps_succ m hstep, hrun]
    simp [movedOn, hresp, hwerr]

/-- The transfer of byte 0 and of `j` more bytes, with `rest` transfers of the frame still to come. -/
theorem runSteps_frame {s : State} {c : Command} {q : List Command} {j : Nat} {rest : List Move}
    (hd : s.dstate = .running ∨ s.dstate = .draining) (hf : s.inflight = none) (hs : s.enc.sending = false) (hq : s.queue = c :: q)
    (ha : s.agenda = List.replicate (j + 1) (.agent .wireTransfer) ++ rest) (hj : j ≤ c.payload.bytes.length + 2) :
    ∃ e : Encoder, runSteps (j + 1) s = .next (afterFirstByte s c q rest e) ∧ e.sending = true ∧ e.StandsAt c (j + 1) := by
  have hstep := step_wireTransfer_first (rest := List.replicate j (.agent .wireTransfer) ++ rest) ha hs hd hf hq
  have hload := Encoder.standsAt_load c
  obtain ⟨e, hrun, hes, hat⟩ :=
    runSteps_wireTransfers (m := j) (k := 1) (rest := rest) (s := afterFirstByte s c q _ (Encoder.load c).advance)
      rfl rfl rfl (by simp [afterFirstByte, hload.last]) (hload.advance (by omega)) (by omega)
  refine ⟨e, ?_, hes, by rwa [Nat.add_comm j 1]⟩
  rwa [runSteps_succ j hstep]

/-- What the wire port shows of a frame part way out (R35, R138). -/
theorem State.tx_of_sending {s : State} {c : Command} {k : Nat} (hs : s.enc.sending = true) (he : s.enc.StandsAt c k)
    (hk : k ≤ c.payload.bytes.length + 3) :
    s.txData = (encodeCommand c)[k]? ∧ s.txLast = some (k == c.payload.bytes.length + 3) := by
  simp [State.txData, State.txLast, State.txEncoder, hs, he.byte hk, he.last]

/-- What the wire port shows where DISPATCH is enabled: byte 0 of the head's frame (R35, log 26). -/
theorem State.tx_of_enabled {s : State} {c : Command} {q : List Command} (hs : s.enc.sending = false)
    (hd : s.dstate = .running ∨ s.dstate = .draining) (hf : s.inflight = none) (hq : s.queue = c :: q) :
    s.txData = (encodeCommand c)[0]? ∧ s.txLast = some (0 == c.payload.bytes.length + 3) := by
  have he := Encoder.standsAt_load c
  simp [State.txData, State.txLast, State.txEncoder, hs, takeHead_of_enabled hd hf hq, he.byte, he.last]

end Sys2Proof.Machine

/-! SUPPORT. The decoder at the command port (R35, R91). -/

namespace Sys2Proof

open Machine

/-- The decoder reads a canonical instruction from the command it constructs. -/
theorem decodeCommand_of_canonical (i : Instr) : i.canonical = true → decodeCommand i.command = i :=
  match i with
  | .reset => Laws.CanonicalSpelling.reset
  | .led r g b => Laws.CanonicalSpelling.led r g b
  | .motor1 v => Laws.CanonicalSpelling.motor1 v
  | .servo v => Laws.CanonicalSpelling.servo v
  | .motor2 v => Laws.CanonicalSpelling.motor2 v
  | .setbitsnap ch v => Laws.CanonicalSpelling.setbitsnap ch v
  | .raw op p => Laws.CanonicalSpelling.raw op p

/-- RAW is canonical where its command has none of the defined shapes (R167). -/
theorem Instr.raw_canonical_iff (op : Byte) (p : Payload) :
    (Instr.raw op p).canonical = true ↔
      (op = 0x0A → p.bytes.length ≠ 2) ∧ (op = 0x09 → p.bytes.length ≠ 3) ∧ (op = 0x0E → p.bytes ≠ [0x7F, 0x7F, 0x7F]) := by
  simp [Instr.canonical, imp_iff_not_or, and_assoc]

/-- The decoder answers the spelling of highest priority (spec/INDEX.md). -/
theorem decodeCommand_canonical (c : Command) : (decodeCommand c).canonical = true := by
  obtain ⟨op, bytes, hb⟩ := c
  unfold decodeCommand
  split
  case h_1 a b h =>
    simp only at h
    split_ifs with hop h0 h1 h2
    · rfl
    · rfl
    · rfl
    · simpa only [Instr.canonical, Bool.and_eq_true, bne_iff_ne] using ⟨⟨h0, h1⟩, h2⟩
    · simp_all [Instr.raw_canonical_iff]
  case h_2 r g b h =>
    simp only at h
    split_ifs with hop hre
    · rfl
    · rfl
    · simp_all [Instr.raw_canonical_iff]
  case h_3 h2 h3 =>
    refine (Instr.raw_canonical_iff _ _).2 ⟨fun _ h => ?_, fun _ h => ?_, fun _ h => h3 _ _ _ h⟩
    · obtain ⟨a, b, h⟩ := List.length_eq_two.1 h
      exact h2 a b h
    · obtain ⟨r, g, b, h⟩ := List.length_eq_three.1 h
      exact h3 r g b h

/-- The data lines past the length are ignored (R35). -/
theorem payloadOfLines_append (p : Payload) (past : List Byte) : payloadOfLines (lengthByte p) (p.bytes ++ past) = p := by
  apply Payload.eq_of_bytes
  apply List.ext_getElem
  · simp [payloadOfLines]
  · intro k h₁ h₂
    simp [payloadOfLines, dataByte, List.getElem?_append_left h₂, h₂]

theorem payloadOfLines_length (len : Byte) (data : List Byte) : (payloadOfLines len data).bytes.length = len.toNat := by
  simp [payloadOfLines]

theorem payloadOfLines_getElem? {len : Byte} {k : Nat} (data : List Byte) (h : k < len.toNat) :
    (payloadOfLines len data).bytes[k]? = some (data.getD k 0) := by
  simp [payloadOfLines, dataByte, h]

/-- The command a presentation is decoded to is the command presented (R35, R167). -/
theorem decodePort_command (p : CmdPort) : (decodePort p).command = commandOfPort p := decodeCommand_command _

end Sys2Proof

/-! SUPPORT. The command port and the status outputs, step by step (R28, R35). -/

namespace Sys2Proof.Machine

/-! ### The command port -/

theorem Command.valid_eq_false_iff (c : Command) : c.valid = false ↔ 128 ≤ c.op.toNat := by
  simp only [Command.valid, decide_eq_false_iff_not]
  omega

theorem Command.valid_iff (c : Command) : c.valid = true ↔ c.op.toNat ≤ 127 := by
  simp [Command.valid]

theorem State.full_iff (s : State) : s.full = true ↔ s.cfg.qdepth ≤ s.queue.length := by
  simp [State.full]

/-- Which commands find the port ready (R35, R182). -/
theorem State.cmdReady_eq_false_iff (c : Command) (s : State) :
    s.cmdReady c = false ↔
      s.dstate = .created ∨ (s.dstate = .running ∧ s.cfg.policy = .block ∧ s.cfg.qdepth ≤ s.queue.length ∧ c.op.toNat ≤ 127) := by
  unfold State.cmdReady
  cases hd : s.dstate with
  | created => simp
  | running =>
    rw [← State.full_iff, ← Command.valid_iff]
    cases s.cfg.policy <;> simp [and_comm]
  | draining => simp
  | stopped => simp

/-- The port's answer, by the command's case of ENQUEUE (R182, R248). -/
theorem enqueue_port (c : Command) (s : State) :
    (s.cmdReady c = true ↔ (enqueue c s).cmdResp ≠ none) ∧
    ((enqueue c s).cmdResp = some 0 ↔ (enqueue c s).queue = s.queue ++ [c]) ∧
    ((enqueue c s).cmdResp = some 2 ↔ s.dstate = .draining ∨ s.dstate = .stopped) ∧
    ((enqueue c s).cmdResp = some 3 ↔ s.dstate = .running ∧ 128 ≤ c.op.toNat) := by
  rw [← Command.valid_eq_false_iff]
  rcases enqueue_cases c s with ⟨hd, e⟩ | ⟨hd | hd, e⟩ | ⟨hd, hv, e⟩ | ⟨hd, hv, hf, e⟩ | ⟨hd, hv, hf, hp, e⟩ | ⟨hd, hv, hf, hp, e⟩ <;>
    simp [State.cmdResp, Response.code, State.cmdReady, *]

/-! ### The status outputs -/

/-- Only an answer of the sink touches the failure log or the strobe (R25, R185). -/
theorem act_log_werr {a : AgentStep} (s : State) (hr : a ≠ .hardwareReset) (ha : ∀ r, a ≠ .respond r) :
    (act a s).log = s.log ∧ (act a s).werr = s.werr := by
  rcases act_cases a s with e | ⟨rfl, -⟩ | e | e | e | e | ⟨r, rfl, -⟩
  case inr.inl => exact absurd rfl hr
  case inr.inr.inr.inr.inr.inr => exact absurd rfl (ha r)
  all_goals simp [e]

/-- The answer that is a `WriteError`: to a write outstanding whose frame is fully out (R185, R223). -/
def failsWrite (s : State) : Prop :=
  ∃ c, s.inflight = some c ∧ nextMove s = some (.agent (.respond .error)) ∧ s.enc.sending = false

/-- A step logs one failure and raises the strobe, or does neither (R28, R185). -/
theorem step_werr_log {s t : State} (hr : nextMove s ≠ some (.agent .hardwareReset)) (h : step s = .next t) :
    (failsWrite s ∧ t.werr = true ∧ ∃ c, t.log = s.log ++ [⟨c⟩]) ∨ (¬failsWrite s ∧ t.werr = false ∧ t.log = s.log) := by
  rcases step_answers_next s with ⟨hm, e⟩ | ⟨p, hm, e⟩ | ⟨a, hm, e⟩ <;> rw [e] at h <;> cases h
  · exact .inr (by simp [failsWrite, hm])
  · exact .inr (by simp [failsWrite, hm])
  · by_cases ha : ∃ r, a = .respond r
    · obtain ⟨r, rfl⟩ := ha
      rcases respond_cases r (beginStep s) with ⟨hn, e⟩ | ⟨-, rfl, c, -, e⟩ | ⟨hs, rfl, c, hf, e⟩
      · refine .inr ⟨?_, by simp [act, e], by simp [act, e]⟩
        rintro ⟨c, hf, -, hs⟩
        simp_all
      · exact .inr (by simp [failsWrite, hm, act, e])
      · exact .inl ⟨⟨c, hf, hm, hs⟩, by simp [act, e, takeWriteError], c, by simp [act, e, takeWriteError]⟩
    · obtain ⟨hl, hw⟩ := act_log_werr (a := a) (beginStep s) (by rintro rfl; exact hr hm) (by simpa using ha)
      refine .inr ⟨?_, by simpa using hw, by simpa using hl⟩
      rintro ⟨c, -, hm', -⟩
      rw [hm] at hm'
      cases hm'
      exact ha ⟨_, rfl⟩

/-- A step from `s` to `t` queues a command: an accepted ENQUEUE, or START in `Created` (R181, R182). -/
def queuesOne (s t : State) : Prop := t.resp = some .accepted ∨ s.dstate = .created ∧ t.dstate = .running

/-- `qcount` goes up by the command queued, and else down by the frames issued (R28). -/
def qcountFollows (s t : State) : Prop :=
  (queuesOne s t → t.qcount = s.qcount + 1 ∧ issuedIn t.hist = issuedIn s.hist) ∧
    (¬queuesOne s t → t.qcount + (issuedIn t.hist).length = s.qcount + (issuedIn s.hist).length)

theorem qcountFollows_of_queued {s t : State} {c : Command} (h : queuesOne s t) (hq : t.queue = s.queue ++ [c])
    (hi : issuedIn t.hist = issuedIn s.hist) : qcountFollows s t :=
  ⟨fun _ => ⟨by simp [State.qcount, hq], hi⟩, fun hn => absurd h hn⟩

theorem qcountFollows_of_not_queued {s t : State} (hr : t.resp ≠ some .accepted) (hd : s.dstate = .created → t.dstate ≠ .running)
    (hc : t.qcount + (issuedIn t.hist).length = s.qcount + (issuedIn s.hist).length) : qcountFollows s t :=
  ⟨fun h => h.elim (absurd · hr) fun h => absurd h.2 (hd h.1), fun _ => hc⟩

theorem qcountFollows_of_same {s t : State} (hr : t.resp ≠ some .accepted) (hd : s.dstate = .created → t.dstate ≠ .running)
    (hq : t.queue = s.queue) (hi : issuedIn t.hist = issuedIn s.hist) : qcountFollows s t :=
  qcountFollows_of_not_queued hr hd (by simp [State.qcount, hq, hi])

theorem qcountFollows_enqueue (c : Command) (s : State) : qcountFollows s (enqueue c s) := by
  have hd : s.dstate = .created → (enqueue c s).dstate ≠ .running := fun h => by simp [h]
  rcases enqueue_cases c s with ⟨-, e⟩ | ⟨-, e⟩ | ⟨-, -, e⟩ | ⟨-, -, -, e⟩ | ⟨-, -, -, -, e⟩ | ⟨-, -, -, -, e⟩ <;> rw [e] at hd ⊢
  case inr.inr.inr.inl => exact qcountFollows_of_queued (.inl rfl) rfl (by simp [issuedIn])
  all_goals exact qcountFollows_of_same (by simp) hd rfl (by simp [issuedIn])

theorem qcountFollows_start {s : State} (hr : s.resp = none) : qcountFollows s (start s) := by
  rcases start_cases s with ⟨hd, e⟩ | ⟨hd, e⟩ <;> rw [e]
  · exact qcountFollows_of_queued (.inr ⟨hd, rfl⟩) rfl (by simp [issuedIn])
  · exact qcountFollows_of_same (by simp [hr]) (fun h => absurd h hd) rfl rfl

theorem qcountFollows_close {s : State} (hr : s.resp = none) : qcountFollows s (close s) := by
  rcases close_cases s with ⟨hd, e⟩ | ⟨hd, -, -, e⟩ | ⟨hd, -, e⟩ | ⟨hd, e⟩ <;> rw [e]
  case inr.inr.inr => exact qcountFollows_of_same (by simp [hr]) (fun h => by simp [h]) rfl rfl
  all_goals exact qcountFollows_of_same (by simp [hr]) (by simp) rfl (by simp [issuedIn])

/-- A frame issued is a command less in the queue (R183). -/
theorem qcountFollows_takeHead {s t : State} {c : Command} (hr : s.resp = none) (h : takeHead s = some (c, t)) :
    qcountFollows s t := by
  obtain ⟨hd, -, q, hq, rfl⟩ := takeHead_eq_some h
  refine qcountFollows_of_not_queued (by simp [hr]) (fun h => absurd h (DState.ne_of_at_work hd).1) ?_
  simp only [State.qcount, hq, issuedIn_append, issuedIn, List.length_append, List.length_cons, List.length_nil]
  omega

theorem qcountFollows_refl {s : State} (hr : s.resp = none) : qcountFollows s s :=
  qcountFollows_of_same (by simp [hr]) (fun h => by simp [h]) rfl rfl

theorem qcountFollows_dispatch {s : State} (hr : s.resp = none) : qcountFollows s (dispatch s) := by
  rcases dispatch_cases s with ⟨-, e⟩ | ⟨c, t, ht, e⟩ <;> rw [e]
  · exact qcountFollows_refl hr
  · exact show qcountFollows s t from qcountFollows_takeHead hr ht

theorem qcountFollows_wireTransfer {s : State} (hr : s.resp = none) : qcountFollows s (wireTransfer s) := by
  rcases wireTransfer_cases s with ⟨-, -, e⟩ | ⟨-, -, e⟩ | ⟨-, -, e⟩ | ⟨-, c, t, ht, e⟩ <;> rw [e]
  · exact qcountFollows_refl hr
  · exact qcountFollows_refl hr
  · exact qcountFollows_refl hr
  · exact show qcountFollows s t from qcountFollows_takeHead hr ht

theorem issuedIn_finishDrain (s : State) : issuedIn (finishDrain s).hist = issuedIn s.hist := by
  rw [finishDrain_hist]
  split <;> simp [issuedIn]

theorem issuedIn_respond (a : Answer) (s : State) : issuedIn (respond a s).hist = issuedIn s.hist := by
  rcases respond_cases a s with ⟨-, e⟩ | ⟨-, -, c, -, e⟩ | ⟨-, -, c, -, e⟩ <;>
    simp only [e, takeWriteError, issuedIn_finishDrain, record_hist, logWriteError_hist, issuedIn_append] <;> simp [issuedIn]

theorem qcountFollows_respond (a : Answer) {s : State} (hr : s.resp = none) : qcountFollows s (respond a s) := by
  refine qcountFollows_of_same (by simp [hr]) (fun hd => ?_) (by simp) (issuedIn_respond a s)
  rcases respond_cases a s with ⟨-, e⟩ | ⟨-, -, c, -, e⟩ | ⟨-, -, c, -, e⟩ <;> simp [e, takeWriteError, hd]

/-- `qcount` follows every step but hardware reset (R28, R35). -/
theorem step_qcount {s t : State} (hr : nextMove s ≠ some (.agent .hardwareReset)) (h : step s = .next t) : qcountFollows s t := by
  have follows : qcountFollows (beginStep s) t := by
    rcases step_answers_next s with ⟨-, e⟩ | ⟨p, -, e⟩ | ⟨a, hm, e⟩ <;> rw [e] at h <;> cases h
    · exact qcountFollows_dispatch rfl
    · exact qcountFollows_enqueue _ _
    · rcases act_cases a (beginStep s) with e | ⟨rfl, -⟩ | e | e | e | e | ⟨r, -, e⟩
      case inr.inl => exact absurd hm hr
      all_goals rw [e]
      · exact qcountFollows_refl rfl
      · exact qcountFollows_start rfl
      · exact qcountFollows_close rfl
      · exact qcountFollows_dispatch rfl
      · exact qcountFollows_wireTransfer rfl
      · exact qcountFollows_respond r rfl
  exact follows

/-- A saturating counter of `w` bits: exact below its top, the top from there on (R28). -/
theorem State.werrCountIn_cases (w : Nat) (s : State) :
    (s.werrCount < 2 ^ w → s.werrCountIn w = s.werrCount) ∧ (2 ^ w ≤ s.werrCount → s.werrCountIn w = 2 ^ w - 1) := by
  unfold State.werrCountIn
  omega

/-- With a bit or more a failure always shows (R28). -/
theorem State.werrCountIn_eq_zero_iff {w : Nat} (hw : 1 ≤ w) (s : State) : s.werrCountIn w = 0 ↔ s.log = [] := by
  have htop : 1 < 2 ^ w := Nat.one_lt_two_pow (by omega)
  rw [← List.length_eq_zero_iff]
  unfold State.werrCountIn State.werrCount
  omega

end Sys2Proof.Machine

/-! The statements about the state: its invariants, its status outputs and codes, and the two ports. -/

namespace Sys2Proof.Proofs

open Sys2Proof Sys2Proof.Machine

/-- Settles O33: each operation keeps I1 to I7, and a step is one of them. -/
theorem stepKeepsTheInvariants : Obligations.StepKeepsTheInvariants :=
  fun _ _ => step_keeps_inv

/-- Settles O36: a transfer starts a frame, moves inside it or ends it, and no other operation touches an encoder in use. -/
theorem stepKeepsEncoderInFrame : Obligations.StepKeepsEncoderInFrame :=
  fun _ _ => step_keeps_encoderInFrame

/-- Settles O8: the port hands the decoder the command presented, of which the decoder reads the canonical spelling. -/
theorem portDecodeInvertsPresentation : Obligations.PortDecodeInvertsPresentation := by
  refine ⟨fun i past hi => ?_, fun p => ⟨decodeCommand_canonical _, ?_, ?_, fun k hk => ?_⟩⟩
  · have hc : commandOfPort { encodePort i with data := (encodePort i).data ++ past } = i.command := by
      simp only [commandOfPort, encodePort, portOfCommand, payloadOfLines_append]
    rw [decodePort, hc, decodeCommand_of_canonical i hi]
  all_goals rw [decodePort_command]
  · rfl
  · exact payloadOfLines_length p.len p.data
  · exact payloadOfLines_getElem? p.data hk

/-- Settles O38: the invariants hold at reset and every step keeps them; the order of the frames is read off the delivery order. -/
theorem everyRunFromResetIsSound : Obligations.EveryRunFromResetIsSound := by
  intro cfg moves n t h
  have hinv : Inv (resetFacing cfg moves) := (inv_resetWith cfg).of_same rfl rfl rfl rfl rfl rfl rfl
  have hord : Ordered (resetFacing cfg moves) := (ordered_resetWith cfg).of_same rfl rfl rfl rfl
  have hone : OneWriteOutstanding (resetFacing cfg moves) := oneWrite_resetWith cfg
  exact ⟨runSteps_keeps (fun _ _ => step_keeps_inv) hinv h, runSteps_keeps (fun _ _ => step_keeps_oneWrite) hone h,
    runSteps_keeps (P := fun s => s.cfg = cfg) (fun _ _ hs hst => (step_cfg hst).trans hs) rfl h,
    (runSteps_keeps (fun _ _ => step_keeps_ordered) hord h).issued_eq_take⟩

/-- Settles O44: the first transfer is DISPATCH, those after it move the encoder through the frame, and the last puts it out of use. -/
theorem wireTransfersRefineDispatch : Obligations.WireTransfersRefineDispatch := by
  intro s c q hd hf hs hq ha
  have run (j m : Nat) (hj : j + m = c.payload.bytes.length + 3) :=
    runSteps_frame (j := j) (rest := List.replicate m (.agent .wireTransfer)) hd hf hs hq
      (by rw [ha, List.replicate_append_replicate]; congr 1; omega)
  constructor
  · intro k hk
    cases k with
    | zero => exact ⟨s, rfl, State.tx_of_enabled hs hd hf hq⟩
    | succ j =>
      obtain ⟨e, hrun, hes, hat⟩ := run j (c.payload.bytes.length + 3 - j) (by omega) (by omega)
      exact ⟨_, hrun, State.tx_of_sending hes hat (by omega)⟩
  · obtain ⟨e, hrun, hes, hat⟩ := run (c.payload.bytes.length + 2) 1 rfl le_rfl
    have hl : e.last = true := by simp [hat.last]
    exact ⟨_, (runSteps_succ_last hrun).trans (step_wireTransfer_last (rest := []) rfl hes hl), rfl, rfl⟩

/-- Settles O52: a step logs one failure or none, and `qcount` follows it. -/
theorem statusOutputsFollowTheSteps : Obligations.StatusOutputsFollowTheSteps := by
  intro s t hr h
  obtain ⟨up, kept⟩ := step_qcount hr h
  rcases step_werr_log hr h with ⟨hfail, hw, c, hl⟩ | ⟨hfail, hw, hl⟩
  · exact ⟨iff_of_true hw hfail, fun _ => by simp [State.werrCount, hl], fun h => by simp [hw] at h, up, kept⟩
  · exact ⟨iff_of_false (by simp [hw]) hfail, fun h => by simp [hw] at h, fun _ => hl, up, kept⟩

/-- Settles O18: each case of ENQUEUE with its answer. -/
theorem commandPortHandshake : Obligations.CommandPortHandshake := by
  intro i s
  obtain ⟨hready, h0, h2, h3⟩ := enqueue_port i.command s
  exact ⟨_, exec_eq_enqueue i s, hready, State.cmdReady_eq_false_iff _ s, h0, h2, h3⟩

/-- Settles O19: fetch, decode and execute. -/
theorem stepRunsThePresentedCommand : Obligations.StepRunsThePresentedCommand := by
  rintro p i rest s ha rfl
  exact step_of_command ha

/-- Settles O28: the step is `hardwareReset`, after which DISPATCH is not enabled and the port is not ready. -/
theorem hardwareResetCreatesTheInstance : Obligations.HardwareResetCreatesTheInstance := by
  intro s rest ha
  have htx : (hardwareReset (movedOn rest s)).txValid = false := by
    simp [State.txValid, State.txEncoder, takeHead_of_not_enabled, Encoder.afterReset]
  exact ⟨_, step_of_agent ha, rfl, rfl, rfl, rfl, rfl, rfl, rfl, rfl, rfl, rfl, rfl, fun _ => rfl, htx⟩

/-- Settles O32: a step always answers, and no operation writes the configuration. -/
theorem everyStepAnswersAndKeepsTheConfiguration : Obligations.EveryStepAnswersAndKeepsTheConfiguration := by
  intro s
  obtain ⟨t, h⟩ := exists_step s
  exact ⟨t, h, step_cfg h⟩

/-- Settles O37: at reset nothing is queued, in flight, logged or recorded. -/
theorem resetMeetsEveryInvariant : Obligations.ResetMeetsEveryInvariant :=
  fun cfg => ⟨inv_resetWith cfg, ordered_resetWith cfg, oneWrite_resetWith cfg, encoderInFrame_resetWith cfg⟩

/-- Settles O48: the four cases of a transfer. -/
theorem eachWireTransferMovesOneByte : Obligations.EachWireTransferMovesOneByte := by
  intro s rest ha
  refine ⟨fun hs hk => ?_, fun hs hk => ?_, fun c q hs hd hf hq => ?_, fun hs hn => step_wireTransfer_idle ha hs hn⟩
  · have hl := (Encoder.last_eq_false_iff s.enc).2 hk
    exact ⟨_, step_wireTransfer_advance ha hs hl, by simp [hl], rfl, rfl, s.enc.advance_crc⟩
  · exact ⟨_, step_wireTransfer_last ha hs ((Encoder.last_iff s.enc).2 hk), rfl, rfl⟩
  · exact ⟨_, by simp [(Encoder.standsAt_load c).last], rfl, rfl, rfl, step_wireTransfer_first ha hs hd hf hq⟩

/-- Settles O50: each code, by its definition. -/
theorem codesAreTheSpecs : Obligations.CodesAreTheSpecs :=
  ⟨⟨rfl, rfl, rfl, rfl⟩, ⟨rfl, rfl⟩, ⟨rfl, rfl, rfl, rfl⟩, rfl, rfl⟩

/-- Settles O51: `qcount` by I1, `werr_count` by I7, and the counter of `w` bits by its saturation. -/
theorem statusOutputsReflectTheState : Obligations.StatusOutputsReflectTheState := by
  intro s hs
  refine ⟨⟨rfl, hs.withinCapacity⟩, Option.isSome_iff_exists, hs.failuresLogged, fun w => ?_⟩
  obtain ⟨belowTop, saturated⟩ := State.werrCountIn_cases w s
  exact ⟨belowTop, saturated, fun hw => State.werrCountIn_eq_zero_iff hw s⟩

end Sys2Proof.Proofs

/-! SUPPORT. ENQUEUE where there is room and DISPATCH where there is a head, as operations and as steps (R182, R183). -/

namespace Sys2Proof.Machine

/-- ENQUEUE accepts a valid command in `Running` where the queue has a place left (R182). -/
theorem enqueue_of_room {s : State} {c : Command} (hd : s.dstate = .running) (hv : c.valid = true)
    (hroom : s.queue.length < s.cfg.qdepth) : enqueue c s = accept c s := by
  simp [enqueue, hd, hv, (State.full_eq_false s).2 hroom]

/-- DISPATCH takes the head, puts it in flight and leaves the encoder out of use (R183). -/
theorem dispatch_of_enabled {s : State} {c : Command} {q : List Command} (hd : s.dstate = .running ∨ s.dstate = .draining)
    (hf : s.inflight = none) (hq : s.queue = c :: q) :
    dispatch s = restEncoder { s with queue := q, inflight := some c, hist := s.hist ++ [.issued (encodeCommand c)] } := by
  rw [dispatch, takeHead_of_enabled hd hf hq]

/-- DISPATCH on the agenda, where it is enabled, as a step. -/
theorem step_dispatch_of_enabled {s : State} {rest : List Move} {c : Command} {q : List Command}
    (ha : s.agenda = .agent .dispatch :: rest) (hd : s.dstate = .running ∨ s.dstate = .draining) (hf : s.inflight = none)
    (hq : s.queue = c :: q) : step s = .next (restEncoder (afterFirstByte s c q rest s.enc)) := by
  rw [step_of_agent ha, act, dispatch_of_enabled (s := movedOn rest s) hd hf hq]
  rfl

/-- A well-formed command on the agenda, where the queue has a place left, as a step. -/
theorem step_command_of_room {s : State} {rest : List Move} {p : CmdPort} (ha : s.agenda = .command p :: rest)
    (hd : s.dstate = .running) (hw : (decodePort p).wellFormed = true) (hroom : s.queue.length < s.cfg.qdepth) :
    step s = .next (accept (decodePort p).command (movedOn rest s)) := by
  rw [Instr.wellFormed_eq_valid] at hw
  rw [step_of_command ha, exec_eq_enqueue, enqueue_of_room (s := movedOn rest s) hd hw hroom]

end Sys2Proof.Machine

/-! The statements about what is kept of the queue and of the history: the order of delivery, the alternation of writes and answers, and the
place that DISPATCH frees. -/

namespace Sys2Proof.Proofs

open Sys2Proof Sys2Proof.Machine

/-- Settles O34: an accepted command joins the queue and the submission order at their ends, DISPATCH moves the head of the queue to the end
of the issued frames, and no other operation bears on the order. -/
theorem stepKeepsDeliveryOrder : Obligations.StepKeepsDeliveryOrder :=
  fun _ _ => step_keeps_ordered

/-- Settles O35: a frame is issued only where no write is outstanding, and an answer recorded only where one is. -/
theorem stepKeepsOneWriteOutstanding : Obligations.StepKeepsOneWriteOutstanding :=
  fun _ _ => step_keeps_oneWrite

/-- Settles O46: DISPATCH leaves one place in the full queue, and the command presented next takes it. The queue has a head because
`QDEPTH` is at least 1. -/
theorem dispatchFreesAPlace : Obligations.DispatchFreesAPlace := by
  rintro s _ p hd hf hfull rfl hw ha
  have hpos := s.cfg.qdepth_pos
  obtain ⟨c, q, hq⟩ := List.exists_cons_of_length_pos (l := s.queue) (by omega)
  have hlen : q.length + 1 = s.cfg.qdepth := by rw [← hfull, hq, List.length_cons]
  have hdispatch := step_dispatch_of_enabled ha (.inl hd) hf hq
  have haccept := step_command_of_room (s := restEncoder (afterFirstByte s c q [.command p] s.enc)) rfl hd hw
    (show q.length < s.cfg.qdepth by omega)
  exact ⟨_, (runSteps_succ 1 hdispatch).trans (runSteps_succ 0 haccept), rfl,
    by simpa [movedOn, afterFirstByte] using hlen, by simp [movedOn, afterFirstByte, hq], by simp [movedOn, afterFirstByte],
    by simp⟩

/-- Settles O39: of the frames issued and queued, which are the submission order, the issued ones come first. -/
theorem issuedIsAPrefixOfSubmission : Obligations.IssuedIsAPrefixOfSubmission :=
  fun _ => Ordered.issued_eq_take

end Sys2Proof.Proofs

/-! SUPPORT. The decoder of whole frames (R108): it inverts `ENCODE` on valid commands, and accepts nothing else. -/

namespace Sys2Proof

open Machine

/-! ### The fields of a frame -/

theorem hi8_toNat (w : Word16) : (hi8 w).toNat = w.toNat / 256 := by
  have := w.isLt
  simp only [hi8, BitVec.extractLsb'_toNat, Nat.shiftRight_eq_div_pow]
  omega

theorem lo8_toNat (w : Word16) : (lo8 w).toNat = w.toNat % 256 := by
  simp [lo8]

/-- Two bytes read as one number, high byte first, are a word exactly where they are its two halves (R12, R108). -/
theorem pair_eq_word_iff (a b : Byte) (w : Word16) :
    a.toNat * 256 + b.toNat = w.toNat ↔ a = hi8 w ∧ b = lo8 w := by
  have hb := b.isLt
  rw [← BitVec.toNat_inj, ← BitVec.toNat_inj, hi8_toNat, lo8_toNat]
  omega

/-- Bit 0 of a byte is its parity. -/
theorem bit0_eq_false_iff (h : Byte) : h.getLsbD 0 = false ↔ h.toNat % 2 = 0 := by
  simp [BitVec.getLsbD, Nat.testBit_zero]

theorem ushiftRight_one_toNat (h : Byte) : (h >>> 1).toNat = h.toNat / 2 := by
  simp [Nat.shiftRight_eq_div_pow]

/-- A header whose reserved bit is clear is the header of the opcode above that bit (R93, R101). -/
theorem headerByte_ushiftRight {h : Byte} (h0 : h.getLsbD 0 = false) : headerByte (h >>> 1) = h := by
  have hlt := h.isLt
  rw [bit0_eq_false_iff] at h0
  apply BitVec.eq_of_toNat_eq
  simp only [headerByte, BitVec.toNat_shiftLeft, ushiftRight_one_toNat, Nat.shiftLeft_eq]
  omega

/-- The opcode above the reserved bit is legal (R93). -/
theorem valid_of_op_eq_ushiftRight {c : Command} {h : Byte} (hop : c.op = h >>> 1) : c.valid = true := by
  have hlt := h.isLt
  rw [Command.valid_iff, hop, ushiftRight_one_toNat]
  omega

theorem lengthByte_eq {p : Payload} {n : Byte} (h : p.bytes.length = n.toNat) : lengthByte p = n :=
  BitVec.eq_of_toNat_eq ((lengthByte_toNat p).trans h)

/-! ### Decoding -/

/-- A sequence of at least four bytes is a header, a length, a middle and two last bytes (R92). -/
theorem exists_frame_fields {f : List Byte} (h : 4 ≤ f.length) : ∃ hd n p a b, f = hd :: n :: (p ++ [a, b]) := by
  match f, h with
  | hd :: n :: rest, h =>
    simp only [List.length_cons] at h
    obtain ⟨a, b, hab⟩ := List.length_eq_two.1 (show (rest.drop (rest.length - 2)).length = 2 by simp; omega)
    exact ⟨hd, n, rest.take (rest.length - 2), a, b, by rw [← hab, List.take_append_drop]⟩

/-- Fewer than four bytes are no frame (R108). -/
theorem four_le_length_of_commandOfFrame {f : List Byte} {c : Command} (h : commandOfFrame f = .ok c) : 4 ≤ f.length := by
  match f with
  | [] | [_] => cases h
  | hd :: n :: rest =>
    by_contra hlt
    simp only [List.length_cons] at hlt
    rw [commandOfFrame, if_pos (by omega)] at h
    cases h

/-- R108's conditions on the fields of a byte sequence, and the command it is then decoded to. -/
theorem commandOfFrame_eq_ok_iff (hd n a b : Byte) (p : List Byte) (c : Command) :
    commandOfFrame (hd :: n :: (p ++ [a, b])) = .ok c ↔
      (p.length = n.toNat ∧ hd.getLsbD 0 = false ∧ a = hi8 (crc16 p) ∧ b = lo8 (crc16 p)) ∧
        c.op = hd >>> 1 ∧ c.payload.bytes = p := by
  by_cases hn : p.length = n.toNat
  · have hlen : (p ++ [a, b]).length = n.toNat + 2 := by simp [hn]
    have htake : (p ++ [a, b]).take n.toNat = p := by simp [← hn]
    have hdrop : (p ++ [a, b]).drop n.toNat = [a, b] := by simp [← hn]
    obtain ⟨op, bytes, hbytes⟩ := c
    simp only [commandOfFrame, if_neg (show ¬ (p ++ [a, b]).length < 2 by omega), dif_pos hlen, htake, hdrop]
    cases hd.getLsbD 0 with
    | true => simp
    | false =>
      by_cases hcrc : a = hi8 (crc16 p) ∧ b = lo8 (crc16 p)
      · simp [hn, hcrc, eq_comm]
      · simp [hcrc]
  · simp [commandOfFrame, hn]

/-- Decoding inverts `ENCODE` on valid commands (R92, R108). -/
theorem commandOfFrame_encodeCommand {c : Command} (hc : c.valid = true) : commandOfFrame (encodeCommand c) = .ok c :=
  (commandOfFrame_eq_ok_iff _ _ _ _ _ _).2
    ⟨⟨(lengthByte_toNat _).symm, headerByte_bit0 _, rfl, rfl⟩, (headerByte_shift_back ((Command.valid_iff c).1 hc)).symm, rfl⟩

/-- Only the frames of valid commands are decoded, each to its command (R108). -/
theorem encodeCommand_of_commandOfFrame {f : List Byte} {c : Command} (h : commandOfFrame f = .ok c) :
    c.valid = true ∧ encodeCommand c = f := by
  obtain ⟨hd, n, p, a, b, rfl⟩ := exists_frame_fields (four_le_length_of_commandOfFrame h)
  obtain ⟨⟨hlen, h0, rfl, rfl⟩, hop, rfl⟩ := (commandOfFrame_eq_ok_iff ..).1 h
  exact ⟨valid_of_op_eq_ushiftRight hop, by rw [encodeCommand, hop, headerByte_ushiftRight h0, lengthByte_eq hlen]⟩

/-- Valid commands with one frame are one command. -/
theorem encodeCommand_inj {c d : Command} (hc : c.valid = true) (hd : d.valid = true) (h : encodeCommand c = encodeCommand d) :
    c = d := by
  have hcd := commandOfFrame_encodeCommand hc
  rw [h, commandOfFrame_encodeCommand hd] at hcd
  exact (Except.ok.inj hcd).symm

/-- The decoder of instructions reads the command of the frame, then its spelling of highest priority. -/
theorem decodeFrame_eq_ok_iff (f : List Byte) (i : Instr) :
    decodeFrame f = .ok i ↔ ∃ c, commandOfFrame f = .ok c ∧ decodeCommand c = i := by
  unfold decodeFrame
  cases commandOfFrame f <;> simp [Except.map]

theorem exists_decodeFrame_iff (f : List Byte) : (∃ i, decodeFrame f = .ok i) ↔ ∃ c, commandOfFrame f = .ok c := by
  simp only [decodeFrame_eq_ok_iff]
  exact ⟨fun ⟨_, c, h, _⟩ => ⟨c, h⟩, fun ⟨c, h⟩ => ⟨_, c, h, rfl⟩⟩

/-- The frame of a well-formed instruction is decoded to the spelling of highest priority (R108, R167). -/
theorem decodeFrame_encode {i : Instr} (hw : i.wellFormed = true) : decodeFrame (encode i) = .ok i.canon :=
  (decodeFrame_eq_ok_iff _ _).2 ⟨_, commandOfFrame_encodeCommand (i.wellFormed_eq_valid ▸ hw), rfl⟩

theorem Instr.canon_eq {i : Instr} (hi : i.canonical = true) : i.canon = i := decodeCommand_of_canonical i hi

theorem Instr.canon_canonical (i : Instr) : i.canon.canonical = true := decodeCommand_canonical _

theorem Instr.canon_command (i : Instr) : i.canon.command = i.command := decodeCommand_command _

/-- The frame of a well-formed instruction in its canonical spelling is decoded to that instruction. -/
theorem decodeFrame_encode_of_canonical {i : Instr} (hw : i.wellFormed = true) (hi : i.canonical = true) :
    decodeFrame (encode i) = .ok i := by
  rw [decodeFrame_encode hw, Instr.canon_eq hi]

/-- A frame that is decoded is the frame of the canonical, well-formed instruction it is decoded to. -/
theorem encode_of_decodeFrame {f : List Byte} {i : Instr} (h : decodeFrame f = .ok i) :
    i.wellFormed = true ∧ i.canonical = true ∧ encode i = f := by
  obtain ⟨c, hc, rfl⟩ := (decodeFrame_eq_ok_iff f i).1 h
  obtain ⟨hv, hf⟩ := encodeCommand_of_commandOfFrame hc
  exact ⟨by rw [Instr.wellFormed_eq_valid, decodeCommand_command, hv], decodeCommand_canonical c,
    by rw [encode, decodeCommand_command, hf]⟩

/-- The bytes between the length and the last two, as R108 cuts them out. -/
theorem frame_payload (hd n a b : Byte) (p : List Byte) :
    ((hd :: n :: (p ++ [a, b])).drop 2).take ((hd :: n :: (p ++ [a, b])).length - 4) = p := by
  simp

/-- The last two bytes, as R108 reads them. -/
theorem frame_last_two (hd n a b : Byte) (p : List Byte) :
    (hd :: n :: (p ++ [a, b])).getD ((hd :: n :: (p ++ [a, b])).length - 2) 0 = a ∧
      (hd :: n :: (p ++ [a, b])).getD ((hd :: n :: (p ++ [a, b])).length - 1) 0 = b := by
  simp

/-- The well-formed frames are the byte sequences that R108 describes. -/
theorem exists_commandOfFrame_iff (f : List Byte) :
    (∃ c, commandOfFrame f = .ok c) ↔
      4 ≤ f.length ∧ f.length = 4 + (f.getD 1 0).toNat ∧ (f.getD 0 0).getLsbD 0 = false ∧
        (f.getD (f.length - 2) 0).toNat * 256 + (f.getD (f.length - 1) 0).toNat = (crc16 ((f.drop 2).take (f.length - 4))).toNat := by
  by_cases h4 : 4 ≤ f.length
  · obtain ⟨hd, n, p, a, b, rfl⟩ := exists_frame_fields h4
    obtain ⟨ha, hb⟩ := frame_last_two hd n a b p
    have hlen : (hd :: n :: (p ++ [a, b])).length = 4 + n.toNat ↔ p.length = n.toNat := by simp; omega
    rw [frame_payload, ha, hb, pair_eq_word_iff]
    simp only [commandOfFrame_eq_ok_iff, exists_and_left, h4, true_and, List.getD_cons_zero, List.getD_cons_succ, hlen]
    refine and_iff_left_of_imp fun ⟨hn, _⟩ => ?_
    exact ⟨⟨hd >>> 1, p, by have := n.isLt; omega⟩, rfl, rfl⟩
  · exact iff_of_false (fun ⟨_, h⟩ => h4 (four_le_length_of_commandOfFrame h)) fun h => h4 h.1

end Sys2Proof

/-! SUPPORT. The table's words (log 14): what stands at each byte of one, and that the number of a frame is read back. -/

namespace Sys2Proof

open Machine

/-! ### The bytes of a word -/

/-- Byte `k` of a word that fits its row, as a number: eight bits of the word numbered `k/2`, from bit 8 for an even `k` that is not the
row's last byte, and from bit 0 otherwise. -/
theorem tableByte_toNat {nbits w : Nat} (k : Nat) (hw : w < 2 ^ nbits) :
    (tableByte nbits w k).toNat = w / 2 ^ (16 * (k / 2) + if k % 2 = 0 ∧ nbits / 8 ≠ k + 1 then 8 else 0) % 2 ^ 8 := by
  rw [tableByte, BitVec.toNat_ofNat, Nat.mod_eq_of_lt hw]

/-- The header byte is bits 15 to 8 of a row that has them (R93). -/
theorem tableByte_zero_toNat {nbits w : Nat} (hn : 16 ≤ nbits) (hw : w < 2 ^ nbits) :
    (tableByte nbits w 0).toNat = w / 2 ^ 8 % 2 ^ 8 := by
  rw [tableByte_toNat 0 hw, if_pos ⟨rfl, by omega⟩]

/-- The length byte is bits 7 to 0 (R94). -/
theorem tableByte_one_toNat {nbits w : Nat} (hw : w < 2 ^ nbits) : (tableByte nbits w 1).toNat = w % 2 ^ 8 := by
  simp [tableByte_toNat 1 hw]

/-- The reserved header bit is bit 8 of the word (R101). -/
theorem tableByte_zero_bit0 {nbits w : Nat} (hn : 16 ≤ nbits) (hw : w < 2 ^ nbits) :
    (tableByte nbits w 0).getLsbD 0 = w.testBit 8 := by
  rw [BitVec.getLsbD, tableByte_zero_toNat hn hw, Nat.testBit_mod_two_pow, Nat.testBit_div_two_pow]
  rfl

/-- The words after the first are the words of the row without it. -/
theorem tableByte_add_two {nbits w : Nat} (head k : Nat) (hh : head < 2 ^ 16) (hw : w < 2 ^ nbits) :
    tableByte (nbits + 16) (head + 2 ^ 16 * w) (k + 2) = tableByte nbits w k := by
  have hlt : head + 2 ^ 16 * w < 2 ^ (nbits + 16) := by rw [pow_add]; omega
  have hparity : (k + 2) % 2 = k % 2 := by omega
  have hword : (k + 2) / 2 = k / 2 + 1 := by omega
  have halone : (nbits + 16) / 8 ≠ k + 2 + 1 ↔ nbits / 8 ≠ k + 1 := by omega
  apply BitVec.eq_of_toNat_eq
  rw [tableByte_toNat _ hlt, tableByte_toNat _ hw, hparity, hword]
  simp only [halone]
  rw [show ∀ x, 16 * (k / 2 + 1) + x = 16 + (16 * (k / 2) + x) by intro; omega, pow_add, ← Nat.div_div_eq_div_mul,
    Nat.add_mul_div_left _ _ (by decide), Nat.div_eq_of_lt hh, zero_add]

/-- The number of a frame has its bytes where the decoder reads them. -/
theorem tableByte_tableWord : ∀ (f : List Byte) (k : Nat) (h : k < f.length), tableByte (8 * f.length) (tableWord f) k = f[k]
  | [b], 0, _ => by
    apply BitVec.eq_of_toNat_eq
    rw [tableByte_toNat _ (tableWord_lt _)]
    simpa [tableWord] using b.isLt
  | a :: b :: rest, 0, _ => by
    have ha := a.isLt
    have hb := b.isLt
    apply BitVec.eq_of_toNat_eq
    rw [tableByte_zero_toNat (by simp only [List.length_cons]; omega) (tableWord_lt _)]
    simp only [tableWord, List.getElem_cons_zero]
    omega
  | a :: b :: rest, 1, _ => by
    have hb := b.isLt
    apply BitVec.eq_of_toNat_eq
    rw [tableByte_one_toNat (tableWord_lt _)]
    simp only [tableWord, List.getElem_cons_succ, List.getElem_cons_zero]
    omega
  | a :: b :: rest, k + 2, h => by
    have ha := a.isLt
    have hb := b.isLt
    have hlen : 8 * (a :: b :: rest).length = 8 * rest.length + 16 := by simp only [List.length_cons]; omega
    rw [hlen, tableWord]
    exact (tableByte_add_two _ k (by omega) (tableWord_lt rest)).trans (tableByte_tableWord rest k _)

/-! ### The command of a word -/

/-- A word with the reserved bit set stands for no command (R101). -/
theorem portOfTableWord_of_reserved {nbits w : Nat} (h : (tableByte nbits w 0).getLsbD 0 = true) : portOfTableWord nbits w = none :=
  if_pos h

/-- The command port's lines for every other word (R91). -/
theorem portOfTableWord_of_not_reserved {nbits w : Nat} (h : (tableByte nbits w 0).getLsbD 0 = false) :
    portOfTableWord nbits w = some ⟨tableByte nbits w 0 >>> 1, tableByte nbits w 1,
      (List.range (tableByte nbits w 1).toNat).map fun k => tableByte nbits w (k + 2)⟩ :=
  if_neg (by simp only [h, Bool.false_eq_true, not_false_eq_true])

/-- The number of a valid command's frame stands for the presentation of that command. -/
theorem portOfTableWord_encodeCommand {c : Command} (hc : c.valid = true) :
    portOfTableWord (8 * (encodeCommand c).length) (tableWord (encodeCommand c)) = some (portOfCommand c) := by
  have hlen : (encodeCommand c).length = c.payload.bytes.length + 4 := by simp [encodeCommand]
  have byte (k : Nat) (hk : k < (encodeCommand c).length) := tableByte_tableWord (encodeCommand c) k hk
  have hheader : _ = headerByte c.op := byte 0 (by omega)
  have hlength : _ = lengthByte c.payload := byte 1 (by omega)
  rw [portOfTableWord_of_not_reserved (hheader ▸ headerByte_bit0 c.op), hheader, hlength,
    headerByte_shift_back ((Command.valid_iff c).1 hc), portOfCommand, Option.some_inj, CmdPort.mk.injEq]
  refine ⟨rfl, rfl, List.ext_getElem (by simp) fun k _ hk => ?_⟩
  rw [List.getElem_map, List.getElem_range, byte (k + 2) (by omega)]
  exact List.getElem_append_left hk

/-- The decoder reads the presentation of a command as its spelling of highest priority (R35). -/
theorem decodePort_portOfCommand (c : Command) : decodePort (portOfCommand c) = decodeCommand c := by
  simp only [decodePort, commandOfPort, portOfCommand, payloadOfLines_lengthByte]

theorem decodePort_canonical (p : CmdPort) : (decodePort p).canonical = true := decodeCommand_canonical _

/-- The number of a well-formed instruction's frame is decoded to the spelling of highest priority (log 14, log 20). -/
theorem decodeTableWord_encode {i : Instr} (hw : i.wellFormed = true) :
    decodeTableWord (8 * (encode i).length) (tableWord (encode i)) = some i.canon := by
  rw [encode, decodeTableWord, portOfTableWord_encodeCommand (i.wellFormed_eq_valid ▸ hw), Option.map_some, decodePort_portOfCommand,
    Instr.canon]

/-- Payload byte `k` of the command presented for a table word is byte `k + 2` of the row. -/
theorem commandOfPort_payload_getElem? {op len : Byte} {row : Nat → Byte} {k : Nat} (hk : k < len.toNat) :
    (commandOfPort ⟨op, len, (List.range len.toNat).map row⟩).payload.bytes[k]? = some (row k) := by
  rw [commandOfPort, payloadOfLines_getElem? _ hk]
  simp [hk]

end Sys2Proof

namespace Sys2Proof.Machine

/-- A table word that stands for a command is presented as the next move (log 15). -/
theorem step_withFetchWord {nbits w : Nat} {p : CmdPort} (s : State) (h : portOfTableWord nbits w = some p) :
    step (s.withFetchWord nbits w) = exec (decodePort p) { start s with resp := none, werr := false } := by
  rw [State.withFetchWord, h]
  exact step_of_command (s := presentCommand p s) rfl

end Sys2Proof.Machine

/-! The statements about the encoding: the decoder of frames and the table's words. -/

namespace Sys2Proof.Proofs

open Sys2Proof Sys2Proof.Machine

/-- Settles O7: decoding inverts `ENCODE` on the commands of well-formed instructions, and accepts only their frames. -/
theorem decodeInvertsEncode : Obligations.DecodeInvertsEncode :=
  ⟨fun _ => decodeFrame_encode_of_canonical,
    fun i hw => ⟨i.canon, decodeFrame_encode hw, i.canon_canonical, i.canon_command⟩,
    fun _ _ => encode_of_decodeFrame⟩

/-- Settles O54: the number of a frame presents the frame's command, of which the decoder reads the canonical spelling. -/
theorem tableWordsInvertEncode : Obligations.TableWordsInvertEncode :=
  ⟨fun i hw hi => by rw [decodeTableWord_encode hw, Instr.canon_eq hi],
    fun i hw => ⟨i.canon, decodeTableWord_encode hw, i.canon_canonical, i.canon_command⟩⟩

/-- Settles O6: R108's conditions are the tests of the decoder, and the fields of a frame are those of its command. -/
theorem wellFormedFramesDecode : Obligations.WellFormedFramesDecode := by
  refine ⟨fun f => (exists_decodeFrame_iff f).trans (exists_commandOfFrame_iff f), fun f i h => ?_, fun _ _ => encodeCommand_inj⟩
  obtain ⟨c, hc, rfl⟩ := (decodeFrame_eq_ok_iff f i).1 h
  obtain ⟨hd, n, p, a, b, rfl⟩ := exists_frame_fields (four_le_length_of_commandOfFrame hc)
  obtain ⟨-, hop, hp⟩ := (commandOfFrame_eq_ok_iff ..).1 hc
  rw [decodeCommand_command, frame_payload]
  exact ⟨hop, hp⟩

/-- Settles O9: the frames of the seven instructions are evaluated and decoded as those of canonical spellings; the refused
sequences are evaluated. -/
theorem writtenOutFramesDecode : Obligations.WrittenOutFramesDecode := by
  have decoded {f : List Byte} {i : Instr} (hf : encode i = f) (hw : i.wellFormed = true) (hi : i.canonical = true) :
      decodeFrame f = .ok i := hf ▸ decodeFrame_encode_of_canonical hw hi
  exact ⟨decoded (by decide +kernel) rfl rfl, decoded (by decide +kernel) rfl rfl, decoded (by decide +kernel) rfl rfl,
    decoded (by decide +kernel) rfl rfl, decoded (by decide +kernel) rfl rfl, decoded (by decide +kernel) rfl rfl,
    decoded (by decide +kernel) rfl rfl, rfl, rfl, rfl, by decide +kernel⟩

/-- Settles O20: the word placed is on the agenda, and the step takes it from there. -/
theorem fetchedTableWordRuns : Obligations.FetchedTableWordRuns := by
  intro nbits w i s h
  obtain ⟨p, hp, rfl⟩ := Option.map_eq_some_iff.1 h
  exact step_withFetchWord s hp

/-- Settles O53: the fields of the command presented are bytes of the row, each with its place in the word. -/
theorem tableWordsReadTheirFields : Obligations.TableWordsReadTheirFields := by
  intro nbits w hn hw
  have hbit := tableByte_zero_bit0 hn hw
  refine ⟨fun h => ?_, fun h => ?_⟩
  · rw [decodeTableWord, portOfTableWord_of_reserved (hbit.trans h), Option.map_none]
  · have hport := portOfTableWord_of_not_reserved (hbit.trans h)
    refine ⟨_, by rw [decodeTableWord, hport, Option.map_some], decodePort_canonical _, ?_, ?_, fun k hk => ?_⟩
    all_goals rw [decodePort_command]
    · rw [commandOfPort, ushiftRight_one_toNat, tableByte_zero_toNat hn hw]
      omega
    · rw [commandOfPort, payloadOfLines_length, tableByte_one_toNat hw]
    · rw [commandOfPort_payload_getElem? ((tableByte_one_toNat hw).symm ▸ hk), Option.map_some, tableByte_toNat _ hw]
      have hword : (k + 2) / 2 = k / 2 + 1 := by omega
      rw [hword]
      refine ⟨fun heven => ?_, fun hodd => ?_⟩
      · rw [if_pos (by omega)]
      · rw [if_neg (by omega), add_zero]

end Sys2Proof.Proofs

/-! SUPPORT. The checksum as a linear map over exclusive or (R131): what one byte does to each half of the register. -/

namespace Sys2Proof.Machine

/-! ### Shifts -/

theorem crcShift_xor (v w : Word16) : crcShift (v ^^^ w) = crcShift v ^^^ crcShift w := by
  have cancel (a b g : Word16) : a ^^^ g ^^^ (b ^^^ g) = a ^^^ b := by
    rw [show a ^^^ g ^^^ (b ^^^ g) = a ^^^ b ^^^ (g ^^^ g) by ac_rfl, BitVec.xor_self, BitVec.xor_zero]
  unfold crcShift
  rw [BitVec.msb_xor, BitVec.shiftLeft_xor_distrib]
  cases v.msb <;> cases w.msb
  case false.false => rfl
  case true.true => exact (cancel _ _ _).symm
  all_goals
    simp only [Bool.xor_true, Bool.xor_false, Bool.not_false, if_true, if_false, Bool.false_eq_true]
    ac_rfl

theorem crcShifts_xor (n : Nat) (v w : Word16) : crcShifts n (v ^^^ w) = crcShifts n v ^^^ crcShifts n w := by
  induction n generalizing v w with
  | zero => rfl
  | succ n ih => rw [crcShifts, crcShift_xor, ih, crcShifts, crcShifts]

theorem crcShifts_zero (n : Nat) : crcShifts n 0 = 0 := by
  induction n with
  | zero => rfl
  | succ n ih => rw [crcShifts, crcShift_zero, ih]

/-- While no bit reaches the top, the generator is not added and the shifts are plain ones (R131). -/
theorem crcShifts_of_lt {n : Nat} {w : Word16} (h : w.toNat * 2 ^ n < 2 ^ 16) : crcShifts n w = w <<< n := by
  induction n generalizing w with
  | zero => exact (BitVec.shiftLeft_zero w).symm
  | succ n ih =>
    have hdouble : w.toNat * 2 ^ (n + 1) = w.toNat * 2 * 2 ^ n := by ring
    have hone : 1 ≤ 2 ^ n := Nat.one_le_two_pow
    have hlt : w.toNat * 2 < 2 ^ 16 := by nlinarith
    have hmsb : w.msb = false := by rw [BitVec.msb_eq_false_iff_two_mul_lt]; omega
    have hshift : (w <<< 1).toNat = w.toNat * 2 := by
      rw [BitVec.toNat_shiftLeft, Nat.shiftLeft_eq, pow_one, Nat.mod_eq_of_lt hlt]
    rw [crcShifts, crcShift, hmsb, if_neg (by simp), ih (by rwa [hshift, ← hdouble]), ← BitVec.shiftLeft_add, add_comm]

/-! ### The halves of the register -/

/-- A word is its high byte at the top, over its low byte (R12). -/
theorem hi8_xor_lo8 (w : Word16) : (hi8 w).setWidth 16 <<< 8 ^^^ (lo8 w).setWidth 16 = w := by
  apply BitVec.eq_of_getLsbD_eq
  intro i hi
  rw [getLsbD_hi8_lo8 w i hi]
  by_cases h : i < 8
  · simp [h, hi]
  · have hlo : (lo8 w).getLsbD i = false := BitVec.getLsbD_of_ge _ _ (by omega)
    simp [h, hi, hlo]

/-- The byte that enters meets the high half of the register, and both leave through the table's eight shifts; the low half moves up
(R131, R133). -/
theorem crcByte_eq (crc : Word16) (b : Byte) :
    crcByte crc b = crcTableEntry (hi8 crc ^^^ b) ^^^ (lo8 crc).setWidth 16 <<< 8 := by
  have hlo : ((lo8 crc).setWidth 16).toNat * 2 ^ 8 < 2 ^ 16 := by
    rw [BitVec.toNat_setWidth]
    omega
  have hhi : (hi8 crc ^^^ b).setWidth 16 <<< 8 = (hi8 crc).setWidth 16 <<< 8 ^^^ b.setWidth 16 <<< 8 := by
    rw [BitVec.setWidth_xor, BitVec.shiftLeft_xor_distrib]
  rw [crcTableEntry, hhi, ← crcShifts_of_lt hlo, ← crcShifts_xor, crcByte]
  conv_lhs => rw [← hi8_xor_lo8 crc]
  congr 1
  ac_rfl

theorem crcTableEntry_zero : crcTableEntry 0#8 = 0#16 := crcShifts_zero 8

/-- The entry of a byte is the checksum of that byte alone, from 0 (R133). -/
theorem crcTableEntry_eq_crcFrom (i : Byte) : crcTableEntry i = crcFrom 0 [i] := by
  simp [crcTableEntry, crcByte]

/-- Shifting the register by a byte drops its high half. -/
theorem lo8_shiftLeft (w : Word16) : (lo8 w).setWidth 16 <<< 8 = w <<< 8 := by
  apply BitVec.eq_of_getLsbD_eq
  intro i hi
  by_cases h : i < 8
  · simp [h]
  · simp [lo8, h, show i - 8 < 8 by omega, show i - 8 < 16 by omega]

/-- The table-driven update is the bit-serial one (R133). -/
theorem crcByteByTable_eq (crc : Word16) (b : Byte) : crcByteByTable crc b = crcByte crc b := by
  rw [crcByteByTable, crcByte_eq, lo8_shiftLeft, BitVec.xor_comm]

/-- A byte that equals the high half leaves the low half, moved up (R141). -/
theorem crcByte_hi8 (w : Word16) : crcByte w (hi8 w) = (lo8 w).setWidth 16 <<< 8 := by
  rw [crcByte_eq, BitVec.xor_self, crcTableEntry_zero, BitVec.zero_xor]

/-- Its own two bytes, high byte first, take the register to zero (R141). -/
theorem crcFrom_hi8_lo8 (w : Word16) : crcFrom w [hi8 w, lo8 w] = 0 := by
  rw [crcFrom_cons, crcFrom_cons, crcFrom_nil, crcByte_hi8, crcByte, BitVec.xor_self]
  exact crcShifts_zero 8

end Sys2Proof.Machine

/-! SUPPORT. The checksum's register as a polynomial over GF(2) (R132): a shift is multiplication by `x` modulo the generator. -/

namespace Sys2Proof.Machine

open Polynomial

/-! ### The polynomial of a word -/

theorem bitsPoly_coeff {n : Nat} (w : BitVec n) (k : Nat) : (bitsPoly w).coeff k = if w.getLsbD k then 1 else 0 := by
  have hterm (i : Nat) : (if w.getLsbD i then (X : (ZMod 2)[X]) ^ i else 0).coeff k =
      if k = i then (if w.getLsbD i then 1 else 0) else 0 := by
    split <;> simp [coeff_X_pow]
  simp only [bitsPoly, finsetSum_coeff, hterm, Finset.sum_ite_eq, Finset.mem_range]
  by_cases hk : k < n
  · rw [if_pos hk]
  · rw [if_neg hk, BitVec.getLsbD_of_ge w k (by omega), if_neg (by decide)]

theorem bitsPoly_degree_lt {n : Nat} (w : BitVec n) : (bitsPoly w).degree < n := by
  rw [degree_lt_iff_coeff_zero]
  intro k hk
  rw [bitsPoly_coeff, BitVec.getLsbD_of_ge _ _ hk]
  rfl

/-- Exclusive or is addition over GF(2). -/
theorem bitsPoly_xor {n : Nat} (v w : BitVec n) : bitsPoly (v ^^^ w) = bitsPoly v + bitsPoly w := by
  ext k
  rw [coeff_add, bitsPoly_coeff, bitsPoly_coeff, bitsPoly_coeff, BitVec.getLsbD_xor]
  cases v.getLsbD k <;> cases w.getLsbD k <;> decide

/-- A byte at the top of the register (R131). -/
theorem bitsPoly_byte_at_top (b : Byte) : bitsPoly (b.setWidth 16 <<< 8) = bitsPoly b * X ^ 8 := by
  ext k
  rw [coeff_mul_X_pow', bitsPoly_coeff, bitsPoly_coeff]
  by_cases h8 : 8 ≤ k
  · by_cases h16 : k < 16
    · simp [h8, h16, show ¬ k < 8 by omega]
    · simp [h8, h16, BitVec.getLsbD_of_ge b (k - 8) (by omega)]
  · simp [h8, show k < 8 by omega]

/-- Shifted up by one, the register loses its top bit (R134). -/
theorem bitsPoly_mul_X (w : Word16) : bitsPoly w * X = bitsPoly (w <<< 1) + if w.msb then X ^ 16 else 0 := by
  have hmsb : w.msb = w.getLsbD 15 := BitVec.msb_eq_getLsbD_last w
  have htop (k : Nat) : (if w.msb then (X : (ZMod 2)[X]) ^ 16 else 0).coeff k = if k = 16 ∧ w.getLsbD 15 then 1 else 0 := by
    rw [hmsb]
    cases w.getLsbD 15 <;> simp [coeff_X_pow]
  ext k
  rw [coeff_add, htop, bitsPoly_coeff]
  cases k with
  | zero => simp
  | succ k =>
    rw [coeff_mul_X, bitsPoly_coeff, BitVec.getLsbD_shiftLeft]
    obtain hk | rfl | hk : k < 15 ∨ k = 15 ∨ 16 ≤ k := by omega
    · simp [show k ≠ 15 by omega, show k + 1 < 16 by omega]
    · simp
    · simp [BitVec.getLsbD_of_ge w k hk, show k ≠ 15 by omega]

/-- The constant of the shift is the generator without its leading term (R9, R132). -/
theorem generatorPoly_eq : generatorPoly = X ^ 16 + bitsPoly (0x1021 : Word16) := by
  have hbits : bitsPoly (0x1021 : Word16) = X ^ 12 + X ^ 5 + 1 := by
    ext k
    rw [bitsPoly_coeff, coeff_add, coeff_add, coeff_X_pow, coeff_X_pow, coeff_one]
    by_cases hk : k < 16
    · interval_cases k <;> decide
    · rw [BitVec.getLsbD_of_ge _ _ (by omega), if_neg (by decide), if_neg (by omega), if_neg (by omega), if_neg (by omega)]
      rfl
  rw [hbits, generatorPoly]
  ring

theorem generatorPoly_monic : generatorPoly.Monic := by
  rw [generatorPoly_eq]
  exact monic_X_pow_add (bitsPoly_degree_lt _)

theorem generatorPoly_degree : generatorPoly.degree = 16 := by
  rw [generatorPoly_eq, degree_add_eq_left_of_degree_lt] <;> rw [degree_X_pow]
  · rfl
  · exact bitsPoly_degree_lt _

/-! ### Modulo the generator -/

/-- The class of a polynomial modulo the generator. -/
noncomputable def modGenerator : (ZMod 2)[X] →+* AdjoinRoot generatorPoly := AdjoinRoot.mk generatorPoly

theorem modGenerator_eq_iff (p q : (ZMod 2)[X]) : modGenerator p = modGenerator q ↔ generatorPoly ∣ p - q := AdjoinRoot.mk_eq_mk

/-- The leading term is congruent to the constant of the shift. -/
theorem modGenerator_X_pow_16 : modGenerator (X ^ 16) = modGenerator (bitsPoly (0x1021 : Word16)) := by
  rw [modGenerator_eq_iff, CharTwo.sub_eq_add, ← generatorPoly_eq]

/-- A shift of the register multiplies by `x`, modulo the generator (R131, R132). -/
theorem modGenerator_crcShift (w : Word16) : modGenerator (bitsPoly (crcShift w)) = modGenerator (bitsPoly w * X) := by
  rw [bitsPoly_mul_X, crcShift]
  cases w.msb with
  | false => simp
  | true => simp only [if_true, bitsPoly_xor, map_add, modGenerator_X_pow_16]

theorem modGenerator_crcShifts (n : Nat) (w : Word16) :
    modGenerator (bitsPoly (crcShifts n w)) = modGenerator (bitsPoly w * X ^ n) := by
  induction n generalizing w with
  | zero => simp [crcShifts]
  | succ n ih => rw [crcShifts, ih, map_mul, modGenerator_crcShift, ← map_mul, mul_assoc, ← pow_succ']

/-- One byte: the register's polynomial moves up by eight places, and the byte's enters sixteen places up (R131, R132). -/
theorem modGenerator_crcByte (crc : Word16) (b : Byte) :
    modGenerator (bitsPoly (crcByte crc b)) = modGenerator (bitsPoly crc * X ^ 8 + bitsPoly b * X ^ 16) := by
  rw [crcByte, modGenerator_crcShifts, bitsPoly_xor, bitsPoly_byte_at_top, add_mul, mul_assoc _ (X ^ 8), ← pow_add]

/-- R132's formula modulo the generator, from any initial value. -/
theorem modGenerator_crcFrom (crc : Word16) (bytes : List Byte) :
    modGenerator (bitsPoly (crcFrom crc bytes)) =
      modGenerator (messagePoly bytes * X ^ 16 + bitsPoly crc * X ^ (8 * bytes.length)) := by
  induction bytes generalizing crc with
  | nil => simp [messagePoly]
  | cons b bs ih =>
    have hlen : X ^ (8 * (b :: bs).length) = (X : (ZMod 2)[X]) ^ 8 * X ^ (8 * bs.length) := by
      rw [List.length_cons, ← pow_add, mul_add_one, add_comm]
    calc modGenerator (bitsPoly (crcFrom crc (b :: bs)))
      _ = modGenerator (messagePoly bs * X ^ 16 + bitsPoly (crcByte crc b) * X ^ (8 * bs.length)) := ih _
      _ = modGenerator (messagePoly bs * X ^ 16 + (bitsPoly crc * X ^ 8 + bitsPoly b * X ^ 16) * X ^ (8 * bs.length)) := by
        simp only [map_add modGenerator (_ * _), map_mul modGenerator _ (X ^ (8 * bs.length)), modGenerator_crcByte]
      _ = modGenerator (messagePoly (b :: bs) * X ^ 16 + bitsPoly crc * X ^ (8 * (b :: bs).length)) := by
        rw [hlen, messagePoly]
        exact congrArg modGenerator (by ring)

/-- A word is its own remainder: what is congruent to it has it as remainder. -/
theorem bitsPoly_eq_modByMonic {w : Word16} {p : (ZMod 2)[X]} (h : modGenerator (bitsPoly w) = modGenerator p) :
    bitsPoly w = p %ₘ generatorPoly := by
  rw [← modByMonic_eq_of_dvd_sub generatorPoly_monic ((modGenerator_eq_iff _ _).1 h)]
  refine ((modByMonic_eq_self_iff generatorPoly_monic).2 ?_).symm
  rw [generatorPoly_degree]
  exact bitsPoly_degree_lt w

end Sys2Proof.Machine

/-! The statements about the checksum. -/

namespace Sys2Proof.Proofs

open Sys2Proof Sys2Proof.Machine

/-- Settles O3: the two updates agree on every register and byte, so the two folds agree. -/
theorem tableDrivenChecksumAgrees : Obligations.TableDrivenChecksumAgrees := by
  refine ⟨crcTableEntry_eq_crcFrom, fun bytes => ?_⟩
  have hupdate : crcByteByTable = crcByte := funext₂ crcByteByTable_eq
  rw [crc16ByTable, hupdate, crc16, crcFrom]

/-- Settles O4: both sides are congruent modulo the generator, and the register's polynomial has a lower degree. -/
theorem checksumIsPolynomialRemainder : Obligations.ChecksumIsPolynomialRemainder :=
  fun bytes => bitsPoly_eq_modByMonic (modGenerator_crcFrom 0xFFFF bytes)

/-- Settles O5: the checksum's own two bytes continue the register that holds it. -/
theorem residueIsZero : Obligations.ResidueIsZero := by
  intro p
  rw [crc16, crcFrom_append, ← crc16]
  exact crcFrom_hi8_lo8 (crc16 p)

end Sys2Proof.Proofs

/-! SUPPORT. The byte-serial encoder over a whole frame (R138), and the moves of other agents in the middle of one. -/

namespace Sys2Proof.Machine

/-! ### A whole frame -/

theorem encodeCommand_length (c : Command) : (encodeCommand c).length = c.payload.bytes.length + 4 := by
  simp [encodeCommand]

/-- From byte `k` on, the encoder emits what is left of the frame (R138). -/
theorem Encoder.StandsAt.emit {c : Command} {m k : Nat} {e : Encoder} (he : e.StandsAt c k)
    (hk : k + m = c.payload.bytes.length + 4) : e.emit m = (encodeCommand c).drop k := by
  induction m generalizing k e with
  | zero => rw [Encoder.emit, List.drop_eq_nil_of_le (by rw [encodeCommand_length]; omega)]
  | succ m ih =>
    obtain ⟨hlt, hbyte⟩ := List.getElem?_eq_some_iff.1 (he.byte (by omega))
    rw [Encoder.emit, ih (he.advance (by omega)) (by omega), ← hbyte, List.drop_eq_getElem_cons hlt]

/-- After `k` bytes of its frame the loaded encoder stands at byte `k`. -/
theorem Encoder.standsAt_iterate (c : Command) {k : Nat} (hk : k ≤ c.payload.bytes.length + 4) :
    (Encoder.advance^[k] (Encoder.load c)).StandsAt c k := by
  induction k with
  | zero => exact Encoder.standsAt_load c
  | succ k ih =>
    rw [Function.iterate_succ_apply']
    exact (ih (by omega)).advance (by omega)

/-! ### What the operations of other agents leave of the wire -/

/-- What the wire sees of the state is as it was: the encoder, the command in flight, the frames issued and the log. -/
structure SameWire (s t : State) : Prop where
  enc : t.enc = s.enc
  inflight : t.inflight = s.inflight
  log : t.log = s.log
  issued : issuedIn t.hist = issuedIn s.hist

theorem sameWire_refl (s : State) : SameWire s s := ⟨rfl, rfl, rfl, rfl⟩

theorem issuedIn_enqueue (c : Command) (s : State) : issuedIn (enqueue c s).hist = issuedIn s.hist := by
  rcases enqueue_cases c s with ⟨-, e⟩ | ⟨-, e⟩ | ⟨-, -, e⟩ | ⟨-, -, -, e⟩ | ⟨-, -, -, -, e⟩ | ⟨-, -, -, -, e⟩ <;>
    simp [e, issuedIn]

theorem issuedIn_start (s : State) : issuedIn (start s).hist = issuedIn s.hist := by
  rcases start_cases s with ⟨-, e⟩ | ⟨-, e⟩ <;> simp [e, issuedIn]

theorem issuedIn_close (s : State) : issuedIn (close s).hist = issuedIn s.hist := by
  rcases close_cases s with ⟨-, e⟩ | ⟨-, -, -, e⟩ | ⟨-, -, e⟩ | ⟨-, e⟩ <;> simp [e, issuedIn]

theorem sameWire_enqueue (c : Command) (s : State) : SameWire s (enqueue c s) :=
  ⟨enqueue_enc c s, enqueue_inflight c s, enqueue_log c s, issuedIn_enqueue c s⟩

theorem sameWire_start (s : State) : SameWire s (start s) :=
  ⟨start_enc s, start_inflight s, start_log s, issuedIn_start s⟩

theorem sameWire_close (s : State) : SameWire s (close s) :=
  ⟨close_enc s, close_inflight s, close_log s, issuedIn_close s⟩

/-- DISPATCH waits for the write outstanding (R71, R183). -/
theorem sameWire_dispatch {s : State} (hf : s.inflight ≠ none) : SameWire s (dispatch s) := by
  rw [dispatch, takeHead_of_not_enabled (.inr (.inr (.inl hf)))]
  exact sameWire_refl s

/-- While a frame is part way out, the step of no agent touches the wire, save a byte transfer and a hardware reset (R138, R223). -/
theorem sameWire_act {a : AgentStep} {s : State} (hs : s.enc.sending = true) (hf : s.inflight ≠ none)
    (hr : a ≠ .hardwareReset) (hw : a ≠ .wireTransfer) : SameWire s (act a s) := by
  cases a with
  | hardwareReset => exact absurd rfl hr
  | establish r =>
    cases r with
    | ready => exact sameWire_start s
    | timeoutError => exact sameWire_refl s
    | discoveryError => exact sameWire_refl s
  | start => exact sameWire_start s
  | close => exact sameWire_close s
  | statusRead => exact sameWire_refl s
  | dispatch => exact sameWire_dispatch hf
  | wireTransfer => exact absurd rfl hw
  | respond r =>
    rw [act, respond_of_sending r hs]
    exact sameWire_refl s

@[simp] theorem act_agenda (a : AgentStep) (s : State) : (act a s).agenda = s.agenda := by
  rcases act_cases a s with e | ⟨-, e⟩ | e | e | e | e | ⟨r, -, e⟩ <;> simp [e]

/-- Every step takes one move off the agenda. -/
theorem step_agenda {s t : State} (h : step s = .next t) : t.agenda = s.agenda.tail := by
  rcases step_answers_next s with ⟨-, e⟩ | ⟨p, -, e⟩ | ⟨a, -, e⟩ <;> rw [e] at h <;> cases h <;> simp

/-- While a frame is part way out, a step with another move than those two next does not touch the wire. -/
theorem sameWire_step {s t : State} (hs : s.enc.sending = true) (hf : s.inflight ≠ none)
    (hr : nextMove s ≠ some (.agent .hardwareReset)) (hw : nextMove s ≠ some (.agent .wireTransfer)) (h : step s = .next t) :
    SameWire s t := by
  have begun {u : State} (hu : SameWire (beginStep s) u) : SameWire s u := ⟨hu.enc, hu.inflight, hu.log, hu.issued⟩
  rcases step_answers_next s with ⟨-, e⟩ | ⟨p, -, e⟩ | ⟨a, hm, e⟩ <;> rw [e] at h <;> cases h
  · exact begun (sameWire_dispatch hf)
  · exact begun (sameWire_enqueue _ _)
  · exact begun (sameWire_act hs hf (fun ha => hr (ha ▸ hm)) fun ha => hw (ha ▸ hm))

/-! ### Runs in the middle of a frame -/

/-- `s` comes after `s₀` in the same frame, that of the command `c` in flight: byte `k` of it is next on the wire, and no frame has been
issued and no failure logged since. -/
structure MidFrame (s₀ : State) (c : Command) (k : Nat) (s : State) : Prop where
  sending : s.enc.sending = true
  standsAt : s.enc.StandsAt c k
  inflight : s.inflight = some c
  log : s.log = s₀.log
  issued : issuedIn s.hist = issuedIn s₀.hist

/-- An encoder in use and in its frame is at the byte of its index. -/
theorem midFrame_self {s : State} (hs : s.enc.sending = true) (he : EncoderInFrame s) :
    MidFrame s s.enc.cur s.enc.idx.toNat s := by
  obtain ⟨hf, -, -, hcrc⟩ := he hs
  exact ⟨hs, ⟨rfl, rfl, hcrc⟩, hf, rfl, rfl⟩

theorem MidFrame.of_sameWire {s₀ s t : State} {c : Command} {k : Nat} (hs : MidFrame s₀ c k s) (h : SameWire s t) :
    MidFrame s₀ c k t where
  sending := h.enc ▸ hs.sending
  standsAt := h.enc ▸ hs.standsAt
  inflight := h.inflight.trans hs.inflight
  log := h.log.trans hs.log
  issued := h.issued.trans hs.issued

/-- A byte transfer before the last moves on to the next byte (R138). -/
theorem MidFrame.after_transfer {s₀ s t : State} {c : Command} {k : Nat} (hs : MidFrame s₀ c k s)
    (hm : nextMove s = some (.agent .wireTransfer)) (hk : k < c.payload.bytes.length + 3) (h : step s = .next t) :
    MidFrame s₀ c (k + 1) t := by
  obtain ⟨rest, ha⟩ := List.head?_eq_some_iff.1 hm
  have hlast : s.enc.last = false := by
    rw [hs.standsAt.last, beq_eq_false_iff_ne]
    omega
  rw [step_wireTransfer_advance ha hs.sending hlast] at h
  cases h
  exact ⟨by simp [hlast], hs.standsAt.advance (by omega), hs.inflight, hs.log, hs.issued⟩

/-- The byte transfers among the first `n` moves of an agenda. -/
def transfersWithin (n : Nat) (agenda : List Move) : Nat := (agenda.take n).count (.agent .wireTransfer)

theorem transfersWithin_succ (n : Nat) (agenda : List Move) :
    transfersWithin (n + 1) agenda =
      (if agenda.head? = some (.agent .wireTransfer) then 1 else 0) + transfersWithin n agenda.tail := by
  cases agenda with
  | nil => simp [transfersWithin]
  | cons m rest => simp [transfersWithin, List.count_cons, add_comm]

/-- A step of any agent, short of a hardware reset, moves on in the frame by one byte where it is a transfer, and else stays. -/
theorem MidFrame.after_step {s₀ s t : State} {c : Command} {k : Nat} (hs : MidFrame s₀ c k s)
    (hr : nextMove s ≠ some (.agent .hardwareReset)) (h : step s = .next t)
    (hk : k + (if nextMove s = some (.agent .wireTransfer) then 1 else 0) ≤ c.payload.bytes.length + 3) :
    MidFrame s₀ c (k + if nextMove s = some (.agent .wireTransfer) then 1 else 0) t := by
  split at hk
  case isTrue hm => simpa only [if_pos hm] using hs.after_transfer hm hk h
  case isFalse hm =>
    rw [if_neg hm]
    exact hs.of_sameWire (sameWire_step hs.sending (by simp [hs.inflight]) hr hm h)

/-- A run with fewer transfers than bytes were left moves on by its transfers (R138, R139). -/
theorem MidFrame.after_runSteps {n k : Nat} {s₀ s t : State} {c : Command} (hs : MidFrame s₀ c k s)
    (hr : Move.agent .hardwareReset ∉ s.agenda) (hk : k + transfersWithin n s.agenda ≤ c.payload.bytes.length + 3)
    (h : runSteps n s = .next t) : MidFrame s₀ c (k + transfersWithin n s.agenda) t := by
  induction n generalizing k s with
  | zero =>
    cases h
    exact hs
  | succ n ih =>
    obtain ⟨u, hu⟩ := exists_step s
    rw [runSteps_succ n hu] at h
    have hua := step_agenda hu
    rw [transfersWithin_succ, ← hua, ← add_assoc] at hk ⊢
    have hnext : nextMove s ≠ some (.agent .hardwareReset) := fun hm => hr (List.mem_of_head? hm)
    exact ih (hs.after_step hnext hu (Nat.le_of_add_right_le hk)) (fun hm => hr (List.mem_of_mem_tail (hua ▸ hm))) hk h

end Sys2Proof.Machine

/-! The statements about the frame: what `ENCODE` lays out, and the encoder that emits it byte by byte. -/

namespace Sys2Proof.Proofs

open Sys2Proof Sys2Proof.Machine

/-- Settles O10: the loaded encoder stands at byte 0, emits the frame from there, and after `k` bytes stands at byte `k`. -/
theorem serialEncoderEmitsTheFrame : Obligations.SerialEncoderEmitsTheFrame := by
  refine fun c => ⟨(Encoder.standsAt_load c).emit (zero_add _), fun k hk => ?_⟩
  rw [(Encoder.standsAt_iterate c (by omega)).last, beq_iff_eq]

/-- Settles O49: a transfer moves on by one byte of the frame, and no other move but a hardware reset touches the wire. -/
theorem otherMovesDoNotDisturbTheFrame : Obligations.OtherMovesDoNotDisturbTheFrame := by
  intro n s t he hs hr hk h
  have hself := midFrame_self hs he
  have ht := hself.after_runSteps hr hk h
  obtain ⟨hdata, hlast⟩ := State.tx_of_sending ht.sending ht.standsAt hk
  exact ⟨ht.inflight.trans hself.inflight.symm, ht.issued, ht.log, hdata, hlast⟩

/-- Settles O1: the bytes of the frame, at their places. -/
theorem encodeLaysOutTheFrame : Obligations.EncodeLaysOutTheFrame := by
  intro c hop
  refine ⟨encodeCommand_length c, ⟨_, rfl, rfl, ?_, headerByte_bit0 c.op⟩, ⟨_, rfl, lengthByte_toNat _⟩, fun k hk => ?_,
    ⟨hi8 (crc16 c.payload.bytes), lo8 (crc16 c.payload.bytes), ?_, ?_, (pair_eq_word_iff _ _ _).2 ⟨rfl, rfl⟩⟩⟩
  · rw [headerByte, BitVec.toNat_shiftLeft, Nat.shiftLeft_eq]
    omega
  · rw [encodeCommand, List.getElem?_cons_succ, List.getElem?_cons_succ, List.getElem?_append_left hk]
  · simp [encodeCommand]
  · simp [encodeCommand]

/-- Settles O2: only byte 0 is made from the opcode, and its shift can be undone. -/
theorem checksumIgnoresTheHeader : Obligations.ChecksumIgnoresTheHeader := by
  intro a b p ha hb
  refine ⟨fun k hk => ?_, fun h => ?_, fun h => by rw [h]⟩
  · obtain ⟨j, rfl⟩ := Nat.exists_eq_succ_of_ne_zero hk
    rfl
  · have hheader : headerByte a = headerByte b := Option.some.inj h
    rw [← headerByte_shift_back ha, hheader, headerByte_shift_back hb]

end Sys2Proof.Proofs

/-! SUPPORT. Executing an instruction is ENQUEUE of its command (log 2): its three outcomes, and the frames of the defined commands and
their RAW forms (R161 to R167, R182). -/

namespace Sys2Proof.Machine

/-! ### Executing an instruction -/

/-- The block cannot tell how a command was constructed (R167). -/
theorem exec_eq_of_command_eq {i j : Instr} (h : i.command = j.command) (s : State) : exec i s = exec j s := by
  rw [exec_eq_enqueue, exec_eq_enqueue, h]

/-- An instruction of a valid command is accepted in `Running` where the queue has a place left (R182). -/
theorem exec_of_room {i : Instr} {c : Command} {s : State} (hc : i.command = c) (hv : c.valid = true) (hd : s.dstate = .running)
    (hroom : s.queue.length < s.cfg.qdepth) : exec i s = .next (acceptedState c s) := by
  rw [exec_eq_enqueue, hc, enqueue_of_room hd hv hroom]
  rfl

/-- The three outcomes of ENQUEUE, whatever the reason for each (R182). -/
theorem enqueue_outcomes (c : Command) (s : State) :
    enqueue c s = accept c s ∨ (∃ code, enqueue c s = refuse c code s) ∨ enqueue c s = hold s := by
  rcases enqueue_cases c s with ⟨-, e⟩ | ⟨-, e⟩ | ⟨-, -, e⟩ | ⟨-, -, -, e⟩ | ⟨-, -, -, -, e⟩ | ⟨-, -, -, -, e⟩
  · exact .inr (.inr e)
  · exact .inr (.inl ⟨_, e⟩)
  · exact .inr (.inl ⟨_, e⟩)
  · exact .inl e
  · exact .inr (.inl ⟨_, e⟩)
  · exact .inr (.inr e)

/-! ### The frames of the defined commands -/

theorem encodeCommand_cmdSetBitsnap (ch v : Byte) :
    encodeCommand (cmdSetBitsnap ch v) = [0x14, 0x02, ch, v, hi8 (crc16 [ch, v]), lo8 (crc16 [ch, v])] := rfl

theorem encodeCommand_cmdLed (r g b : Byte) :
    encodeCommand (cmdLed r g b) = [0x12, 0x03, r, g, b, hi8 (crc16 [r, g, b]), lo8 (crc16 [r, g, b])] := rfl

theorem encodeCommand_cmdReset : encodeCommand cmdReset = [0x1C, 0x03, 0x7F, 0x7F, 0x7F, 0xAF, 0xBA] := by decide +kernel

/-! ### The RAW form of a command -/

/-- A command written out as RAW, with its opcode and its payload bytes, is that command (R167). -/
theorem cmdRaw_eq_of_bytes {c : Command} {p : Payload} (h : p.bytes = c.payload.bytes) : cmdRaw c.op p = c := by
  rw [cmdRaw, Payload.eq_of_bytes h]

end Sys2Proof.Machine

/-! The statements about the command set: what each instruction submits, and what executing it changes. -/

namespace Sys2Proof.Proofs

open Sys2Proof Sys2Proof.Machine

/-- Settles O11: the aliases construct the command of SETBITSNAP on their channel. -/
theorem setBitsnapFamilyIsAccepted : Obligations.SetBitsnapFamilyIsAccepted := by
  intro ch v s hd hroom
  have accepted (i : Instr) (hc : i.command = cmdSetBitsnap ch v) : exec i s = .next (acceptedState (cmdSetBitsnap ch v) s) :=
    exec_of_room hc rfl hd hroom
  refine ⟨cmdSetBitsnap ch v, rfl, rfl, encodeCommand_cmdSetBitsnap ch v, accepted _ rfl, ?_, ?_, ?_⟩
  all_goals
    rintro rfl
    exact accepted _ rfl

/-- Settles O12: the command of LED is valid. -/
theorem ledIsAccepted : Obligations.LedIsAccepted :=
  fun r g b _ hd hroom => ⟨cmdLed r g b, rfl, rfl, encodeCommand_cmdLed r g b, exec_of_room rfl rfl hd hroom⟩

/-- Settles O13: the Reset command is valid, and its frame is a constant. -/
theorem resetCommandIsAccepted : Obligations.ResetCommandIsAccepted :=
  fun _ hd hroom => ⟨cmdReset, rfl, rfl, encodeCommand_cmdReset, exec_of_room rfl cmdReset_valid hd hroom⟩

/-- Settles O14: with an opcode of at most 127 the command is valid, whatever its payload. -/
theorem rawIsAccepted : Obligations.RawIsAccepted :=
  fun op p _ hd hroom hop => exec_of_room rfl ((Command.valid_iff ⟨op, p⟩).2 hop) hd hroom

/-- Settles O16: executing an instruction depends on its command alone, and a command on its opcode and payload bytes. -/
theorem spellingsAreIndistinguishable : Obligations.SpellingsAreIndistinguishable :=
  ⟨fun _ _ s h => exec_eq_of_command_eq h s, fun _ => ⟨rfl, rfl, rfl⟩,
    fun ch v _ h => cmdRaw_eq_of_bytes (c := cmdSetBitsnap ch v) h,
    fun r g b _ h => cmdRaw_eq_of_bytes (c := cmdLed r g b) h,
    fun _ h => cmdRaw_eq_of_bytes (c := cmdReset) h⟩

/-- Settles O17: executing an instruction is ENQUEUE of its command, which accepts, refuses or holds. -/
theorem commandsChangeOnlyQueueHistoryAndAnswer : Obligations.CommandsChangeOnlyQueueHistoryAndAnswer := by
  intro i s
  refine ⟨_, exec_eq_enqueue i s, enqueue_frame i.command s, ?_⟩
  rcases enqueue_outcomes i.command s with e | ⟨code, e⟩ | e <;> rw [e]
  · exact .inl ⟨rfl, rfl, rfl⟩
  · exact .inr (.inl ⟨rfl, code, rfl, rfl⟩)
  · exact .inr (.inr ⟨rfl, rfl, rfl⟩)

end Sys2Proof.Proofs

/-! SUPPORT. Each operation of the dispatcher in each of its cases, as an equation, and the agents' moves as steps (R181 to R187). -/

namespace Sys2Proof.Machine

/-! ### A move taken off the agenda -/

@[simp] theorem movedOn_cfg (rest : List Move) (s : State) : (movedOn rest s).cfg = s.cfg := rfl
@[simp] theorem movedOn_dstate (rest : List Move) (s : State) : (movedOn rest s).dstate = s.dstate := rfl
@[simp] theorem movedOn_queue (rest : List Move) (s : State) : (movedOn rest s).queue = s.queue := rfl
@[simp] theorem movedOn_inflight (rest : List Move) (s : State) : (movedOn rest s).inflight = s.inflight := rfl
@[simp] theorem movedOn_log (rest : List Move) (s : State) : (movedOn rest s).log = s.log := rfl
@[simp] theorem movedOn_hist (rest : List Move) (s : State) : (movedOn rest s).hist = s.hist := rfl
@[simp] theorem movedOn_enc (rest : List Move) (s : State) : (movedOn rest s).enc = s.enc := rfl
@[simp] theorem movedOn_agenda (rest : List Move) (s : State) : (movedOn rest s).agenda = rest := rfl

/-! ### ENQUEUE -/

theorem enqueue_of_created (c : Command) {s : State} (hd : s.dstate = .created) : enqueue c s = hold s := by
  simp [enqueue, hd]

/-- Once the input is closed every command is refused, even an invalid one (R182). -/
theorem enqueue_of_closed (c : Command) {s : State} (hd : s.dstate = .draining ∨ s.dstate = .stopped) :
    enqueue c s = refuse c .closed s := by
  rcases hd with hd | hd <;> simp [enqueue, hd]

/-- An invalid command never waits for room (R182). -/
theorem enqueue_of_invalid {c : Command} {s : State} (hd : s.dstate = .running) (hv : c.valid = false) :
    enqueue c s = refuse c .badCommand s := by
  simp [enqueue, hd, hv]

theorem enqueue_of_full_failFast {c : Command} {s : State} (hd : s.dstate = .running) (hv : c.valid = true)
    (hfull : s.cfg.qdepth ≤ s.queue.length) (hp : s.cfg.policy = .failFast) : enqueue c s = refuse c .queueFull s := by
  simp [enqueue, hd, hv, (State.full_iff s).2 hfull, hp]

theorem enqueue_of_full_block {c : Command} {s : State} (hd : s.dstate = .running) (hv : c.valid = true)
    (hfull : s.cfg.qdepth ≤ s.queue.length) (hp : s.cfg.policy = .block) : enqueue c s = hold s := by
  simp [enqueue, hd, hv, (State.full_iff s).2 hfull, hp]

/-- A well-formed command presented to a full queue under `Block` is held: the step leaves no trace (R182, R195). -/
theorem step_command_of_full_block {s : State} {rest : List Move} {p : CmdPort} (ha : s.agenda = .command p :: rest)
    (hd : s.dstate = .running) (hw : (decodePort p).wellFormed = true) (hfull : s.cfg.qdepth ≤ s.queue.length)
    (hp : s.cfg.policy = .block) : step s = .next (movedOn rest s) := by
  rw [Instr.wellFormed_eq_valid] at hw
  rw [step_of_command ha, exec_eq_enqueue, enqueue_of_full_block (s := movedOn rest s) hd hw hfull hp]
  rfl

/-- A command presented once the input is closed, as a step. -/
theorem step_command_of_closed {s : State} {rest : List Move} {p : CmdPort} (ha : s.agenda = .command p :: rest)
    (hd : s.dstate = .draining ∨ s.dstate = .stopped) :
    step s = .next (refuse (decodePort p).command .closed (movedOn rest s)) := by
  rw [step_of_command ha, exec_eq_enqueue, enqueue_of_closed (s := movedOn rest s) _ hd]

/-! ### START and CLOSE -/

theorem start_of_created {s : State} (hd : s.dstate = .created) :
    start s = record .started { qpush cmdReset s with dstate := .running } := if_pos hd

theorem start_of_not_created {s : State} (hd : s.dstate ≠ .created) : start s = s := if_neg hd

theorem close_of_created {s : State} (hd : s.dstate = .created) :
    close s = record .stopped (record .closeRequested { s with dstate := .stopped }) := by
  simp [close, hd]

/-- With nothing to drain CLOSE stops at once (R186). -/
theorem close_of_running_idle {s : State} (hd : s.dstate = .running) (hq : s.queue = []) (hf : s.inflight = none) :
    close s = record .stopped { record .closeRequested s with dstate := .stopped } := by
  simp only [close, hd, hq, hf, and_self, if_true]

theorem close_of_running_busy {s : State} (hd : s.dstate = .running) (hb : s.queue ≠ [] ∨ s.inflight ≠ none) :
    close s = { record .closeRequested s with dstate := .draining } := by
  simp only [close, hd, if_neg (show ¬(s.queue = [] ∧ s.inflight = none) by tauto)]

/-- A second CLOSE is ignored (R186). -/
theorem close_of_closed {s : State} (hd : s.dstate = .draining ∨ s.dstate = .stopped) : close s = s := by
  rcases hd with hd | hd <;> simp only [close, hd]

/-- A CLOSE with nothing to drain, as a step. -/
theorem step_close_of_idle {s : State} {rest : List Move} (ha : s.agenda = .agent .close :: rest) (hd : s.dstate = .running)
    (hq : s.queue = []) (hf : s.inflight = none) :
    step s = .next (record .stopped { record .closeRequested (movedOn rest s) with dstate := .stopped }) := by
  rw [step_of_agent ha, act, close_of_running_idle (s := movedOn rest s) hd hq hf]

/-- What a CLOSE with something to drain leaves. -/
def drainingAfterClose (rest : List Move) (s : State) : State :=
  { record .closeRequested (movedOn rest s) with dstate := .draining }

/-- A CLOSE with something to drain, as a step. -/
theorem step_close_of_busy {s : State} {rest : List Move} (ha : s.agenda = .agent .close :: rest) (hd : s.dstate = .running)
    (hb : s.queue ≠ [] ∨ s.inflight ≠ none) : step s = .next (drainingAfterClose rest s) := by
  rw [step_of_agent ha, act, close_of_running_busy (s := movedOn rest s) hd hb]
  rfl

/-! ### DISPATCH -/

theorem dispatch_of_not_enabled {s : State}
    (h : s.dstate = .created ∨ s.dstate = .stopped ∨ s.inflight ≠ none ∨ s.queue = []) : dispatch s = s := by
  rw [dispatch, takeHead_of_not_enabled h]

/-- With no move on the agenda the consumer goes on alone (log 6). -/
theorem step_of_idle {s : State} (ha : s.agenda = []) : step s = .next (dispatch (movedOn [] s)) := by
  simp [step, nextMove, ha, beginStep, movedOn]

/-! ### The sink's answer -/

/-- What either COMPLETE step does before the end of a drain (R184, R185): the answer is recorded, the command is no longer in flight, and
an error is logged. -/
def answered (a : Answer) (c : Command) (s : State) : State :=
  match a with
  | .ok => record (.completed .ok) { s with inflight := none }
  | .error => record (.completed .error) { logWriteError c s with inflight := none }

@[simp] theorem answered_dstate (a : Answer) (c : Command) (s : State) : (answered a c s).dstate = s.dstate := by cases a <;> rfl
@[simp] theorem answered_queue (a : Answer) (c : Command) (s : State) : (answered a c s).queue = s.queue := by cases a <;> rfl
@[simp] theorem answered_inflight (a : Answer) (c : Command) (s : State) : (answered a c s).inflight = none := by cases a <;> rfl
@[simp] theorem answered_enc (a : Answer) (c : Command) (s : State) : (answered a c s).enc = s.enc := by cases a <;> rfl
@[simp] theorem answered_agenda (a : Answer) (c : Command) (s : State) : (answered a c s).agenda = s.agenda := by cases a <;> rfl
@[simp] theorem answered_hist (a : Answer) (c : Command) (s : State) : (answered a c s).hist = s.hist ++ [.completed a] := by
  cases a <;> rfl
@[simp] theorem answered_log (a : Answer) (c : Command) (s : State) : (answered a c s).log = s.log ++ drainLog [c] [a] := by
  cases a <;> simp [answered, drainLog]

/-- An answer to the write outstanding, its frame fully out (R220). -/
theorem respond_of_inflight (a : Answer) {s : State} {c : Command} (hs : s.enc.sending = false) (hf : s.inflight = some c) :
    respond a s = finishDrain (answered a c s) := by
  cases a <;> simp [respond, completeOk, completeErr, takeWriteError, answered, hs, hf]

/-- An answer with no write outstanding is no move (R223). -/
theorem respond_of_not_inflight (a : Answer) {s : State} (hf : s.inflight = none) : respond a s = s := by
  cases a <;> simp [respond, completeOk, completeErr, hf]

theorem finishDrain_of_finished {s : State} (h : s.dstate = .draining ∧ s.queue = []) :
    finishDrain s = record .stopped { s with dstate := .stopped } := if_pos h

theorem finishDrain_of_unfinished {s : State} (h : ¬(s.dstate = .draining ∧ s.queue = [])) : finishDrain s = s := if_neg h

/-- The answer to the write outstanding that ends a drain, as a step (R184, R185). -/
theorem step_respond_of_finished {s : State} {rest : List Move} {a : Answer} {c : Command}
    (ha : s.agenda = .agent (.respond a) :: rest) (hs : s.enc.sending = false) (hf : s.inflight = some c)
    (h : s.dstate = .draining ∧ s.queue = []) :
    step s = .next (record .stopped { answered a c (movedOn rest s) with dstate := .stopped }) := by
  rw [step_of_agent ha, act, respond_of_inflight (s := movedOn rest s) a hs hf, finishDrain_of_finished (by simpa using h)]

/-- Any other answer to the write outstanding, as a step. -/
theorem step_respond_of_unfinished {s : State} {rest : List Move} {a : Answer} {c : Command}
    (ha : s.agenda = .agent (.respond a) :: rest) (hs : s.enc.sending = false) (hf : s.inflight = some c)
    (h : ¬(s.dstate = .draining ∧ s.queue = [])) : step s = .next (answered a c (movedOn rest s)) := by
  rw [step_of_agent ha, act, respond_of_inflight (s := movedOn rest s) a hs hf, finishDrain_of_unfinished (by simpa using h)]

/-! ### The transition table -/

theorem respond_dstate (a : Answer) (s : State) :
    (respond a s).dstate =
      if s.dstate = .draining ∧ s.queue = [] ∧ s.inflight ≠ none ∧ s.enc.sending = false then .stopped else s.dstate := by
  by_cases hs : s.enc.sending = true
  · simp [respond_of_sending a hs, hs]
  rw [Bool.not_eq_true] at hs
  cases hf : s.inflight with
  | none => simp [respond_of_not_inflight a hf]
  | some c => simp [respond_of_inflight a hs hf, hs]

theorem start_dstate (s : State) : (start s).dstate = if s.dstate = .created then .running else s.dstate := by
  rcases start_cases s with ⟨hd, e⟩ | ⟨hd, e⟩ <;> simp [e, hd]

/-- An agent's step leads where the table says (R187). -/
theorem act_dstate {s : State} {a : AgentStep} (hm : nextMove s = some (.agent a)) :
    (act a (beginStep s)).dstate = nextDState s := by
  cases a with
  | hardwareReset => simp [nextDState, hm, act]
  | establish r =>
    cases r with
    | ready =>
      rw [nextDState, hm]
      exact start_dstate (beginStep s)
    | timeoutError => simp [nextDState, hm, act, establish]
    | discoveryError => simp [nextDState, hm, act, establish]
  | start =>
    rw [nextDState, hm]
    exact start_dstate (beginStep s)
  | close =>
    rw [act, nextDState, hm]
    rcases close_cases (beginStep s) with ⟨hd, e⟩ | ⟨hd, hq, hf, e⟩ | ⟨hd, hb, e⟩ | ⟨hd, e⟩ <;> rw [e]
    · simp [show s.dstate = .created from hd]
    · simp [show s.dstate = .running from hd, show s.queue = [] from hq, show s.inflight = none from hf]
    · have hb : ¬(s.queue = [] ∧ s.inflight = none) := not_and_or.2 hb
      simp [show s.dstate = .running from hd, hb]
    · rcases (show s.dstate = .draining ∨ s.dstate = .stopped from hd) with hd | hd <;> simp [hd]
  | statusRead => simp [nextDState, hm, act]
  | dispatch => simp [nextDState, hm, act]
  | wireTransfer => simp [nextDState, hm, act]
  | respond r =>
    rw [nextDState, hm]
    exact respond_dstate r (beginStep s)

/-- A step leads where the table says; ENQUEUE and the consumer's own DISPATCH do not change `dstate` (R187). -/
theorem step_dstate {s t : State} (h : step s = .next t) : t.dstate = nextDState s := by
  rcases step_answers_next s with ⟨hm, e⟩ | ⟨p, hm, e⟩ | ⟨a, hm, e⟩ <;> rw [e] at h <;> cases h
  · simp [nextDState, hm]
  · simp [nextDState, hm]
  · exact act_dstate hm

end Sys2Proof.Machine

/-! SUPPORT. `Stopped` is terminal (R187, R196). -/

namespace Sys2Proof.Machine

/-- What every step short of a hardware reset keeps, every run without one keeps. -/
theorem runSteps_keeps_without_reset {P : State → Prop}
    (keeps : ∀ s t, P s → nextMove s ≠ some (.agent .hardwareReset) → step s = .next t → P t) {n : Nat} {s t : State} (hs : P s)
    (hr : Move.agent .hardwareReset ∉ s.agenda) (h : runSteps n s = .next t) : P t := by
  induction n generalizing s with
  | zero =>
    cases h
    exact hs
  | succ n ih =>
    obtain ⟨u, hu⟩ := exists_step s
    rw [runSteps_succ n hu] at h
    exact ih (keeps s u hs (fun hm => hr (List.mem_of_head? hm)) hu) (fun hm => hr (List.mem_of_mem_tail (step_agenda hu ▸ hm))) h

/-- `s` comes after `s₀` and is `Stopped` with nothing queued or outstanding; nothing has been logged, issued or accepted since. -/
structure StoppedSince (s₀ s : State) : Prop where
  stopped : s.dstate = .stopped
  queue : s.queue = []
  inflight : s.inflight = none
  log : s.log = s₀.log
  issued : issuedIn s.hist = issuedIn s₀.hist
  accepted : acceptedIn s.hist = acceptedIn s₀.hist

theorem stoppedSince_self {s : State} (hs : Inv s) (hd : s.dstate = .stopped) : StoppedSince s s :=
  have ⟨hq, hf⟩ := hs.stoppedEmpty hd
  ⟨hd, hq, hf, rfl, rfl, rfl⟩

/-- The end of a run that stopped survives whatever leaves these readings of the state. -/
theorem StoppedSince.of_same {s₀ s t : State} (hs : StoppedSince s₀ s) (hd : t.dstate = s.dstate) (hq : t.queue = s.queue)
    (hf : t.inflight = s.inflight) (hl : t.log = s.log) (hi : issuedIn t.hist = issuedIn s.hist)
    (ha : acceptedIn t.hist = acceptedIn s.hist) : StoppedSince s₀ t :=
  ⟨hd.trans hs.stopped, hq.trans hs.queue, hf.trans hs.inflight, hl.trans hs.log, hi.trans hs.issued, ha.trans hs.accepted⟩

theorem StoppedSince.takeHead_eq_none {s₀ s : State} (hs : StoppedSince s₀ s) : takeHead s = none :=
  takeHead_of_not_enabled (.inr (.inl hs.stopped))

theorem StoppedSince.after_enqueue {s₀ s : State} (hs : StoppedSince s₀ s) (c : Command) : StoppedSince s₀ (enqueue c s) := by
  rw [enqueue_of_closed c (.inr hs.stopped)]
  exact hs.of_same rfl rfl rfl rfl (by simp [issuedIn]) (by simp [acceptedIn])

theorem StoppedSince.after_dispatch {s₀ s : State} (hs : StoppedSince s₀ s) : StoppedSince s₀ (dispatch s) := by
  rwa [dispatch_of_not_enabled (.inr (.inl hs.stopped))]

/-- A transfer can only move the encoder on: there is no head to begin a frame with. -/
theorem StoppedSince.after_transfer {s₀ s : State} (hs : StoppedSince s₀ s) : StoppedSince s₀ (wireTransfer s) := by
  rcases wireTransfer_cases s with ⟨-, -, e⟩ | ⟨-, -, e⟩ | ⟨-, -, e⟩ | ⟨-, c, t, ht, -⟩
  · rw [e]
    exact hs.of_same rfl rfl rfl rfl rfl rfl
  · rw [e]
    exact hs.of_same rfl rfl rfl rfl rfl rfl
  · rwa [e]
  · simp [hs.takeHead_eq_none] at ht

theorem StoppedSince.after_act {s₀ s : State} {a : AgentStep} (hs : StoppedSince s₀ s) (hr : a ≠ .hardwareReset) :
    StoppedSince s₀ (act a s) := by
  rcases act_cases a s with e | ⟨ha, -⟩ | e | e | e | e | ⟨r, -, e⟩
  · rwa [e]
  · exact absurd ha hr
  · rwa [e, start_of_not_created (by simp [hs.stopped])]
  · rwa [e, close_of_closed (.inr hs.stopped)]
  · rw [e]
    exact hs.after_dispatch
  · rw [e]
    exact hs.after_transfer
  · rwa [e, respond_of_not_inflight r hs.inflight]

/-- `Stopped` is left by hardware reset alone, and nothing happens in it (R187). -/
theorem StoppedSince.after_step {s₀ s t : State} (hs : StoppedSince s₀ s) (hr : nextMove s ≠ some (.agent .hardwareReset))
    (h : step s = .next t) : StoppedSince s₀ t := by
  have hb : StoppedSince s₀ (beginStep s) := hs.of_same rfl rfl rfl rfl rfl rfl
  rcases step_answers_next s with ⟨-, e⟩ | ⟨p, -, e⟩ | ⟨a, hm, e⟩ <;> rw [e] at h <;> cases h
  · exact hb.after_dispatch
  · exact hb.after_enqueue _
  · exact hb.after_act fun ha => hr (ha ▸ hm)

theorem StoppedSince.after_runSteps {s₀ s t : State} {n : Nat} (hs : StoppedSince s₀ s) (hr : Move.agent .hardwareReset ∉ s.agenda)
    (h : runSteps n s = .next t) : StoppedSince s₀ t :=
  runSteps_keeps_without_reset (fun _ _ hs => hs.after_step) hs hr h

/-- Once START has happened, the submission order begins with the Reset command, and so do the frames issued (R191). -/
theorem Ordered.first_issued {s : State} (hs : Ordered s) {f : List Byte} (hf : (issuedIn s.hist).head? = some f) :
    f = encodeCommand cmdReset := by
  rw [hs.issued_eq_take, List.head?_map, List.head?_take] at hf
  split at hf
  · simp at hf
  · simpa [submittedIn, eq_comm] using hf

/-- A CLOSE in `Created` stops a block that has issued nothing (R186, R191). -/
theorem stoppedSince_close_of_created {s t : State} (hs : Ordered s) (hd : s.dstate = .created)
    (hm : nextMove s = some (.agent .close)) (h : step s = .next t) : StoppedSince s t := by
  obtain ⟨-, hq, hf⟩ := hs.createdFresh hd
  obtain ⟨rest, ha⟩ := List.head?_eq_some_iff.1 hm
  rw [step_of_agent ha, act, close_of_created (s := movedOn rest s) hd] at h
  cases h
  exact ⟨rfl, hq, hf, rfl, by simp [movedOn, issuedIn], by simp [movedOn, acceptedIn]⟩

end Sys2Proof.Machine

/-! SUPPORT. Hiding which writes failed (R189): every operation of the block commutes with it, and so does every run. -/

namespace Sys2Proof.Machine

/-- The state with the failures hidden (R189): no log, no strobe, and every answer, recorded or to come, an `ok`. -/
def State.hideFailures (s : State) : State :=
  { s with log := [], werr := false, agenda := s.agenda.map hideAnswer, hist := s.hist.map hideEventAnswer }

/-- Two runs that differ only in which writes failed are one run to an observer who cannot see failures (R189). -/
theorem sameButFailures_iff {s t : State} : SameButFailures s t ↔ s.hideFailures = t.hideFailures := by
  constructor
  · rintro ⟨hcfg, hd, hq, hf, he, hr, hdr, ha, hh⟩
    simp only [State.hideFailures, hcfg, hd, hq, hf, he, hr, hdr, ha, hh]
  · intro h
    obtain ⟨hcfg, hd, hq, hf, -, hh, he, hr, -, ha, hdr⟩ := State.mk.inj h
    exact ⟨hcfg, hd, hq, hf, he, hr, hdr, ha, hh⟩

/-! ### The operations -/

theorem hideFailures_record (e : Event) (s : State) :
    (record e s).hideFailures = record (hideEventAnswer e) s.hideFailures := by
  simp [State.hideFailures, record]

theorem hideFailures_beginStep (s : State) : (beginStep s).hideFailures = beginStep s.hideFailures := by
  simp [State.hideFailures, beginStep]

theorem hideFailures_hold (s : State) : (hold s).hideFailures = hold s.hideFailures := rfl

theorem hideFailures_refuse (c : Command) (code : RefusalCode) (s : State) :
    (refuse c code s).hideFailures = refuse c code s.hideFailures := by
  simp [State.hideFailures, refuse, record, hideEventAnswer]

theorem hideFailures_accept (c : Command) (s : State) : (accept c s).hideFailures = accept c s.hideFailures := by
  simp [State.hideFailures, accept, record, qpush, hideEventAnswer]

/-- ENQUEUE chooses its case by `dstate`, the command, the queue and the configuration, none of which is hidden (R182). -/
theorem hideFailures_enqueue (c : Command) (s : State) : (enqueue c s).hideFailures = enqueue c s.hideFailures := by
  rcases enqueue_cases c s with
    ⟨hd, e⟩ | ⟨hd, e⟩ | ⟨hd, hv, e⟩ | ⟨hd, hv, hroom, e⟩ | ⟨hd, hv, hfull, hp, e⟩ | ⟨hd, hv, hfull, hp, e⟩
  · rw [e, enqueue_of_created (s := s.hideFailures) c hd, hideFailures_hold]
  · rw [e, enqueue_of_closed (s := s.hideFailures) c hd, hideFailures_refuse]
  · rw [e, enqueue_of_invalid (s := s.hideFailures) hd hv, hideFailures_refuse]
  · rw [e, enqueue_of_room (s := s.hideFailures) hd hv ((State.full_eq_false s).1 hroom), hideFailures_accept]
  · rw [e, enqueue_of_full_failFast (s := s.hideFailures) hd hv ((State.full_iff s).1 hfull) hp, hideFailures_refuse]
  · rw [e, enqueue_of_full_block (s := s.hideFailures) hd hv ((State.full_iff s).1 hfull) hp, hideFailures_hold]

theorem hideFailures_hardwareReset (s : State) : (hardwareReset s).hideFailures = hardwareReset s.hideFailures := rfl

theorem hideFailures_start (s : State) : (start s).hideFailures = start s.hideFailures := by
  rcases start_cases s with ⟨hd, e⟩ | ⟨hd, e⟩
  · rw [e, start_of_created (s := s.hideFailures) hd, hideFailures_record]
    rfl
  · rw [e, start_of_not_created (s := s.hideFailures) hd]

theorem hideFailures_close (s : State) : (close s).hideFailures = close s.hideFailures := by
  rcases close_cases s with ⟨hd, e⟩ | ⟨hd, hq, hf, e⟩ | ⟨hd, hb, e⟩ | ⟨hd, e⟩
  · rw [e, close_of_created (s := s.hideFailures) hd, hideFailures_record, hideFailures_record]
    rfl
  · rw [e, close_of_running_idle (s := s.hideFailures) hd hq hf]
    simp [State.hideFailures, record, hideEventAnswer]
  · rw [e, close_of_running_busy (s := s.hideFailures) hd hb]
    simp [State.hideFailures, record, hideEventAnswer]
  · rw [e, close_of_closed (s := s.hideFailures) hd]

theorem hideFailures_takeHead (s : State) :
    takeHead s.hideFailures = (takeHead s).map fun (c, t) => (c, t.hideFailures) := by
  have hm : s.hideFailures.mayDispatch = s.mayDispatch := rfl
  have hq : s.hideFailures.queue = s.queue := rfl
  unfold takeHead qpop
  rw [hm, hq]
  cases s.mayDispatch
  · rfl
  · cases s.queue <;> simp [State.hideFailures, wireWrite, record, hideEventAnswer]

theorem hideFailures_dispatch (s : State) : (dispatch s).hideFailures = dispatch s.hideFailures := by
  unfold dispatch
  rw [hideFailures_takeHead]
  cases takeHead s <;> rfl

theorem hideFailures_wireTransfer (s : State) : (wireTransfer s).hideFailures = wireTransfer s.hideFailures := by
  have he : s.hideFailures.enc = s.enc := rfl
  unfold wireTransfer
  rw [hideFailures_takeHead, he]
  split
  · rw [apply_ite State.hideFailures]
    rfl
  · cases takeHead s <;> rfl

/-- The two COMPLETE steps differ only in what is hidden (R185, R189). -/
theorem hideFailures_answered (a : Answer) (c : Command) (s : State) :
    (answered a c s).hideFailures = answered .ok c s.hideFailures := by
  cases a <;> simp [State.hideFailures, answered, logWriteError, record, hideEventAnswer]

/-- The drain-to-`Stopped` edge is taken by `dstate` and the queue, which are not hidden (R189). -/
theorem hideFailures_finishDrain (s : State) : (finishDrain s).hideFailures = finishDrain s.hideFailures := by
  rcases finishDrain_cases s with ⟨hd, hq, e⟩ | ⟨hn, e⟩
  · rw [e, finishDrain_of_finished (s := s.hideFailures) ⟨hd, hq⟩, hideFailures_record]
    rfl
  · rw [e, finishDrain_of_unfinished (s := s.hideFailures) hn]

theorem hideFailures_respond (a : Answer) (s : State) : (respond a s).hideFailures = respond .ok s.hideFailures := by
  by_cases hs : s.enc.sending = true
  · rw [respond_of_sending a hs, respond_of_sending (s := s.hideFailures) .ok hs]
  rw [Bool.not_eq_true] at hs
  cases hf : s.inflight with
  | none => rw [respond_of_not_inflight a hf, respond_of_not_inflight (s := s.hideFailures) .ok hf]
  | some c =>
    rw [respond_of_inflight a hs hf, respond_of_inflight (s := s.hideFailures) .ok hs hf, hideFailures_finishDrain,
      hideFailures_answered]

/-- An agent's step on the failures hidden is its step with the answer hidden. -/
theorem exists_act_hideFailures (a : AgentStep) (s : State) :
    ∃ b, hideAnswer (.agent a) = .agent b ∧ (act a s).hideFailures = act b s.hideFailures := by
  cases a with
  | hardwareReset => exact ⟨_, rfl, hideFailures_hardwareReset s⟩
  | establish r =>
    cases r with
    | ready => exact ⟨_, rfl, hideFailures_start s⟩
    | timeoutError => exact ⟨_, rfl, rfl⟩
    | discoveryError => exact ⟨_, rfl, rfl⟩
  | start => exact ⟨_, rfl, hideFailures_start s⟩
  | close => exact ⟨_, rfl, hideFailures_close s⟩
  | statusRead => exact ⟨_, rfl, rfl⟩
  | dispatch => exact ⟨_, rfl, hideFailures_dispatch s⟩
  | wireTransfer => exact ⟨_, rfl, hideFailures_wireTransfer s⟩
  | respond r => exact ⟨_, rfl, hideFailures_respond r s⟩

/-! ### Steps and runs -/

theorem nextMove_hideFailures (s : State) : nextMove s.hideFailures = (nextMove s).map hideAnswer := List.head?_map

/-- A step seen without its failures is the step of the state seen without its failures (R189). -/
theorem step_hideFailures {s t : State} (h : step s = .next t) : step s.hideFailures = .next t.hideFailures := by
  have hn := nextMove_hideFailures s
  rcases step_answers_next s with ⟨hm, e⟩ | ⟨p, hm, e⟩ | ⟨a, hm, e⟩ <;> rw [e] at h <;> cases h <;> rw [hm] at hn
  · simp only [step, hn, Option.map_none, hideFailures_dispatch, hideFailures_beginStep]
  · simp only [step, hn, Option.map_some, hideAnswer, exec_eq_enqueue, hideFailures_enqueue, hideFailures_beginStep]
  · obtain ⟨b, hb, hact⟩ := exists_act_hideFailures a (beginStep s)
    simp only [step, hn, Option.map_some, hb, hact, hideFailures_beginStep]

theorem runSteps_hideFailures {n : Nat} {s t : State} (h : runSteps n s = .next t) :
    runSteps n s.hideFailures = .next t.hideFailures := by
  induction n generalizing s with
  | zero =>
    cases h
    rfl
  | succ n ih =>
    obtain ⟨u, hu⟩ := exists_step s
    rw [runSteps_succ n hu] at h
    rw [runSteps_succ n (step_hideFailures hu), ih h]

/-- Every run answers a state (R14, log 24). -/
theorem exists_runSteps (n : Nat) (s : State) : ∃ t, runSteps n s = .next t := by
  induction n generalizing s with
  | zero => exact ⟨s, rfl⟩
  | succ n ih =>
    obtain ⟨u, hu⟩ := exists_step s
    rw [runSteps_succ n hu]
    exact ih u

/-- Two runs that differ only in which writes fail stay so (R189). -/
theorem SameButFailures.after_runSteps {n : Nat} {s t s' t' : State} (h : SameButFailures s t) (hs : runSteps n s = .next s')
    (ht : runSteps n t = .next t') : SameButFailures s' t' := by
  rw [sameButFailures_iff] at h ⊢
  have hrun := runSteps_hideFailures hs
  rw [h, runSteps_hideFailures ht] at hrun
  exact (Host.Outcome.next.inj hrun).symm

/-- The frames issued do not show which writes failed (R189). -/
theorem SameButFailures.issued {s t : State} (h : SameButFailures s t) : issuedIn s.hist = issuedIn t.hist := by
  rw [← issuedIn_hideEventAnswer, h.hist, issuedIn_hideEventAnswer]

end Sys2Proof.Machine

/-! SUPPORT. A drain (R186, R192): an answer and a DISPATCH by turns, down to the last command queued. -/

namespace Sys2Proof.Machine

/-! ### Where a drain ends -/

/-- `t` is where the drain of `s` ends with the given answers: `Stopped` with nothing left, every queued command's frame issued in order,
every answer recorded, and the failed commands logged, the one in flight in `s` among them. -/
structure DrainedBy (s : State) (answers : List Answer) (t : State) : Prop where
  stopped : t.dstate = .stopped
  queue : t.queue = []
  inflight : t.inflight = none
  issued : issuedIn t.hist = issuedIn s.hist ++ s.queue.map encodeCommand
  replies : answersIn t.hist = answersIn s.hist ++ answers
  log : t.log = s.log ++ drainLog (s.inflight.toList ++ s.queue) answers

/-- The next `n` steps drain `s`, with these answers. -/
def Drains (n : Nat) (s : State) (answers : List Answer) : Prop := ∃ t, runSteps n s = .next t ∧ DrainedBy s answers t

/-- The log of a drain, answer by answer (R185). -/
theorem drainLog_cons (c : Command) (cs : List Command) (a : Answer) (as : List Answer) :
    drainLog (c :: cs) (a :: as) = drainLog [c] [a] ++ drainLog cs as := by
  cases a <;> simp [drainLog]

/-! ### The first step of a drain -/

/-- A drain that begins with the DISPATCH of the head. -/
theorem drains_of_dispatch {n : Nat} {s : State} {rest : List Move} {c : Command} {q : List Command} {answers : List Answer}
    (ha : s.agenda = .agent .dispatch :: rest) (hd : s.dstate = .draining) (hf : s.inflight = none) (hq : s.queue = c :: q)
    (h : Drains n (restEncoder (afterFirstByte s c q rest s.enc)) answers) : Drains (n + 1) s answers := by
  obtain ⟨t, hrun, ht⟩ := h
  refine ⟨t, (runSteps_succ n (step_dispatch_of_enabled ha (.inr hd) hf hq)).trans hrun, ht.stopped, ht.queue, ht.inflight, ?_, ?_, ?_⟩
  · simp [ht.issued, afterFirstByte, hq, issuedIn]
  · simp [ht.replies, afterFirstByte, answersIn]
  · simp [ht.log, afterFirstByte, hf, hq]

/-- A drain that begins with the answer to the write outstanding, with commands still queued. -/
theorem drains_of_answer {n : Nat} {s : State} {rest : List Move} {c : Command} {a : Answer} {as : List Answer}
    (ha : s.agenda = .agent (.respond a) :: rest) (hs : s.enc.sending = false) (hf : s.inflight = some c) (hq : s.queue ≠ [])
    (h : Drains n (answered a c (movedOn rest s)) as) : Drains (n + 1) s (a :: as) := by
  obtain ⟨t, hrun, ht⟩ := h
  have hstep := step_respond_of_unfinished ha hs hf fun h => hq h.2
  refine ⟨t, (runSteps_succ n hstep).trans hrun, ht.stopped, ht.queue, ht.inflight, ?_, ?_, ?_⟩
  · simp [ht.issued, issuedIn]
  · simp [ht.replies, answersIn]
  · simp [ht.log, hf, drainLog_cons c s.queue a as]

/-- A drain that ends with the answer to the write outstanding. -/
theorem drains_of_last_answer {s : State} {rest : List Move} {c : Command} {a : Answer}
    (ha : s.agenda = .agent (.respond a) :: rest) (hd : s.dstate = .draining) (hs : s.enc.sending = false)
    (hf : s.inflight = some c) (hq : s.queue = []) : Drains 1 s [a] := by
  refine ⟨_, runSteps_succ 0 (step_respond_of_finished ha hs hf ⟨hd, hq⟩), rfl, ?_, ?_, ?_, ?_, ?_⟩
  · simpa using hq
  · simp
  · simp [hq, issuedIn]
  · simp [answersIn]
  · simp [hf, hq]

/-- The CLOSE before a drain in which there is something to do (R186). -/
theorem drains_of_close {n : Nat} {s : State} {rest : List Move} {answers : List Answer}
    (ha : s.agenda = .agent .close :: rest) (hd : s.dstate = .running) (hb : s.queue ≠ [] ∨ s.inflight ≠ none)
    (h : Drains n (drainingAfterClose rest s) answers) : Drains (n + 1) s answers := by
  obtain ⟨t, hrun, ht⟩ := h
  refine ⟨t, (runSteps_succ n (step_close_of_busy ha hd hb)).trans hrun, ht.stopped, ht.queue, ht.inflight, ?_, ?_, ht.log⟩
  · simp [ht.issued, drainingAfterClose, issuedIn]
  · simp [ht.replies, drainingAfterClose, answersIn]

/-- The CLOSE that finds nothing to drain (R186). -/
theorem drains_of_idle_close {s : State} {rest : List Move} (ha : s.agenda = .agent .close :: rest) (hd : s.dstate = .running)
    (hq : s.queue = []) (hf : s.inflight = none) : Drains 1 s [] := by
  refine ⟨_, runSteps_succ 0 (step_close_of_idle ha hd hq hf), rfl, hq, hf, ?_, ?_, ?_⟩
  · simp [hq, issuedIn]
  · simp [answersIn]
  · simp [hq, hf, drainLog]

/-! ### Whole drains -/

/-- A drain with a write outstanding, by induction on the commands queued: after the answer either none is left and the block stops, or
DISPATCH puts the next one in flight. -/
theorem drains_of_inflight {s : State} {c : Command} {q : List Command} {answers : List Answer} (hd : s.dstate = .draining)
    (hs : s.enc.sending = false) (hf : s.inflight = some c) (hq : s.queue = q) (hlen : answers.length = q.length + 1)
    (ha : s.agenda = drainFrom (some c) answers) : Drains (drainFrom (some c) answers).length s answers := by
  induction q generalizing s c answers with
  | nil =>
    obtain ⟨a, rfl⟩ := List.length_eq_one_iff.1 hlen
    exact drains_of_last_answer ha hd hs hf hq
  | cons d q ih =>
    match answers, hlen with
    | a :: b :: as, hlen =>
      have ha : s.agenda = .agent (.respond a) :: .agent .dispatch :: drainFrom (some d) (b :: as) := ha
      refine drains_of_answer ha hs hf (by simp [hq]) ?_
      refine drains_of_dispatch (answered_agenda a c _) (by simpa using hd) (by simp) (by simpa using hq) ?_
      exact ih (answers := b :: as) (by simpa [afterFirstByte] using hd) rfl rfl rfl (by simpa using hlen) rfl

/-- A drain from `Draining`, with or without a write outstanding. -/
theorem drains_of_draining {s : State} {answers : List Answer} (hd : s.dstate = .draining) (hs : s.enc.sending = false)
    (hne : answers ≠ []) (hlen : answers.length = (s.inflight.toList ++ s.queue).length)
    (ha : s.agenda = drainFrom s.inflight answers) : Drains (drainFrom s.inflight answers).length s answers := by
  cases hf : s.inflight with
  | some c => exact drains_of_inflight hd hs hf rfl (by simpa [hf, add_comm] using hlen) (by rw [ha, hf])
  | none =>
    obtain ⟨a, as, rfl⟩ := List.exists_cons_of_ne_nil hne
    cases hq : s.queue with
    | nil => simp [hf, hq] at hlen
    | cons c q =>
      have ha : s.agenda = .agent .dispatch :: drainFrom (some c) (a :: as) := by rw [ha, hf]; rfl
      refine drains_of_dispatch ha hd hf hq ?_
      exact drains_of_inflight (q := q) (answers := a :: as) hd rfl rfl rfl (by simpa [hf, hq] using hlen) rfl

/-- A drain from `Running`, which the CLOSE begins. -/
theorem drains_of_running {s : State} {answers : List Answer} (hd : s.dstate = .running) (hs : s.enc.sending = false)
    (hlen : answers.length = (s.inflight.toList ++ s.queue).length)
    (ha : s.agenda = .agent .close :: drainFrom s.inflight answers) :
    Drains ((drainFrom s.inflight answers).length + 1) s answers := by
  by_cases hne : answers = []
  · subst hne
    obtain ⟨hf, hq⟩ : s.inflight = none ∧ s.queue = [] := by simpa using hlen.symm
    rw [hf]
    exact drains_of_idle_close ha hd hq hf
  · have hb : s.queue ≠ [] ∨ s.inflight ≠ none := by
      by_contra! hidle
      simp [hidle, hne] at hlen
    have hdrain := drains_of_draining (s := drainingAfterClose (drainFrom s.inflight answers) s) rfl hs hne hlen rfl
    exact drains_of_close ha hd hb hdrain

end Sys2Proof.Machine

/-! The statements about the dispatcher: the agents' steps, the end in `Stopped`, the drain, and failures that do not show on the wire. -/

namespace Sys2Proof.Proofs

open Sys2Proof Sys2Proof.Machine

/-- Settles O43: every operation commutes with hiding the failures, so the two runs, alike with the failures hidden, stay alike. -/
theorem failuresDoNotChangeTheWire : Obligations.FailuresDoNotChangeTheWire := by
  intro n s t s' h hs
  obtain ⟨t', ht⟩ := exists_runSteps n t
  have h' := h.after_runSteps hs ht
  exact ⟨t', ht, h', h'.issued⟩

/-- Settles O30: the table, move by move; and nothing happens in `Stopped` but the clearing of outputs, refusals and idle transfers. -/
theorem transitionsFollowTheTable : Obligations.TransitionsFollowTheTable := by
  refine ⟨fun _ _ => step_dstate, fun s t hs hd hr h => ?_⟩
  have hself := stoppedSince_self hs hd
  have ht := hself.after_step hr h
  exact ⟨ht.stopped, ht.queue.trans hself.queue.symm, ht.inflight.trans hself.inflight.symm, ht.log⟩

/-- Settles O31: I4 and I6 give the first part, and every step short of a hardware reset keeps the second. -/
theorem stoppedIsTheEnd : Obligations.StoppedIsTheEnd := by
  intro s hs hd
  have hself := stoppedSince_self hs hd
  refine ⟨hself.queue, hself.inflight, by simpa [hself.inflight] using hs.writesAnswered, fun n t hr h => ?_⟩
  have ht := hself.after_runSteps hr h
  exact ⟨ht.stopped, ht.log, ht.issued, ht.accepted⟩

/-- Settles O40: the submission order begins with the Reset command; and CLOSE in `Created` stops a block that has issued nothing. -/
theorem resetFrameComesFirst : Obligations.ResetFrameComesFirst := by
  refine ⟨fun s f hs hf => (hs.first_issued hf).trans encodeCommand_cmdReset, fun n s t hs hd hm hr h => ?_⟩
  have hsilent : issuedIn s.hist = [] := by simp [(hs.createdFresh hd).1, issuedIn]
  cases n with
  | zero =>
    cases h
    exact hsilent
  | succ n =>
    obtain ⟨u, hu⟩ := exists_step s
    rw [runSteps_succ n hu] at h
    have hr' : Move.agent .hardwareReset ∉ u.agenda := fun hmem => hr (List.mem_of_mem_tail (step_agenda hu ▸ hmem))
    exact ((stoppedSince_close_of_created hs hd hm hu).after_runSteps hr' h).issued.trans hsilent

/-- Settles O41: in `Stopped` the queue is empty, so the frames issued are the whole submission order; I6 counts the answers and
I7 the log. -/
theorem stoppedMeansAllDelivered : Obligations.StoppedMeansAllDelivered := by
  intro s hs ho hd hst
  obtain ⟨hq, hf⟩ := hs.stoppedEmpty hd
  have hissued : issuedIn s.hist = (submittedIn s.hist).map encodeCommand := by simpa [hq] using ho.inOrder hst
  have hanswers : (issuedIn s.hist).length = (answersIn s.hist).length := by simpa [hf] using hs.writesAnswered
  exact ⟨hissued, by rw [← hanswers, hissued, List.length_map], hs.failuresLogged⟩

/-- Settles O42: an answer and a DISPATCH by turns use up the queue; the CLOSE in `Running` begins the same drain, or stops at once. -/
theorem drainReachesStopped : Obligations.DrainReachesStopped := by
  constructor
  · intro s answers hd hs hne hlen ha
    obtain ⟨t, hrun, ht⟩ := drains_of_draining hd hs hne hlen ha
    exact ⟨t, by rwa [ha], ht.stopped, ht.queue, ht.inflight, ht.issued, ht.replies, ht.log⟩
  · intro s answers hd hs hlen ha
    obtain ⟨t, hrun, ht⟩ := drains_of_running hd hs hlen ha
    exact ⟨t, by rwa [ha], ht.stopped, ht.queue, ht.inflight, ht.issued, ht.replies, ht.log⟩

/-- Settles O47: the queue is full, hence not empty, so CLOSE begins a drain, in which the command presented again is refused. -/
theorem heldProducerIsReleasedByClose : Obligations.HeldProducerIsReleasedByClose := by
  rintro s _ p rest hd hp hfull rfl hw ha
  have hpos := s.cfg.qdepth_pos
  have hq : s.queue ≠ [] := List.ne_nil_of_length_pos (by omega)
  have hheld := step_command_of_full_block ha hd hw hfull.ge hp
  have hclose := step_close_of_busy (s := movedOn (.agent .close :: .command p :: rest) s) rfl hd (.inl hq)
  have hrefused := step_command_of_closed (s := drainingAfterClose (.command p :: rest) (movedOn (.agent .close :: .command p :: rest) s))
    rfl (.inl rfl)
  exact ⟨runSteps_succ 0 hheld, _, (runSteps_succ 2 hheld).trans ((runSteps_succ 1 hclose).trans (runSteps_succ 0 hrefused)),
    rfl, rfl, rfl, rfl⟩

/-- Settles O15: executing an instruction is ENQUEUE of its command, case by case. -/
theorem enqueueFollowsEveryCase : Obligations.EnqueueFollowsEveryCase := by
  intro i s
  rw [exec_eq_enqueue]
  have valid (hop : i.command.op.toNat < 128) : i.command.valid = true := (Command.valid_iff _).2 (by omega)
  refine ⟨fun hd => ?_, fun hd => ?_, fun hd hop => ?_, fun hd hop hroom => ?_, fun hd hop hfull hp => ?_, fun hd hop hfull hp => ?_⟩
  · rw [enqueue_of_created _ hd]
    rfl
  · rw [enqueue_of_closed _ hd]
    rfl
  · rw [enqueue_of_invalid hd ((Command.valid_eq_false_iff _).2 hop)]
    rfl
  · rw [enqueue_of_room hd (valid hop) hroom]
    rfl
  · rw [enqueue_of_full_failFast hd (valid hop) hfull hp]
    rfl
  · rw [enqueue_of_full_block hd (valid hop) hfull hp]
    rfl

/-- Settles O21: START by `dstate`; the command queued is the Reset command. -/
theorem startQueuesTheResetCommand : Obligations.StartQueuesTheResetCommand := by
  intro s rest ha
  rw [step_of_agent ha, act]
  refine ⟨fun hd => ⟨cmdReset, rfl, rfl, ?_⟩, fun hd => ?_⟩
  · rw [start_of_created (s := movedOn rest s) hd]
    rfl
  · rw [start_of_not_created (s := movedOn rest s) hd]

/-- Settles O22: DISPATCH where it is enabled, and where it is not. -/
theorem dispatchIssuesTheHead : Obligations.DispatchIssuesTheHead := by
  intro s rest ha
  refine ⟨fun c q hd hf hq => ⟨_, step_dispatch_of_enabled ha hd hf hq, rfl, rfl⟩, fun hn => ?_⟩
  rw [step_of_agent ha, act, dispatch_of_not_enabled (s := movedOn rest s) hn]

/-- Settles O23: with an empty agenda the step is DISPATCH. -/
theorem consumerGoesOnAlone : Obligations.ConsumerGoesOnAlone := by
  intro s ha
  rw [step_of_idle ha]
  refine ⟨fun c q hd hf hq => ?_, fun hn => ?_⟩
  · rw [dispatch_of_enabled (s := movedOn [] s) hd hf hq]
    exact ⟨_, rfl, rfl, rfl⟩
  · rw [dispatch_of_not_enabled (s := movedOn [] s) hn]

/-- Settles O24: the answer `ok`, with the end of the drain where it is finished. -/
theorem completeOkEndsTheWrite : Obligations.CompleteOkEndsTheWrite := by
  intro s rest c ha hs hf
  refine ⟨fun h => ?_, fun h => step_respond_of_unfinished ha hs hf h⟩
  rw [step_respond_of_finished ha hs hf h]
  simp [record, answered]

/-- Settles O25: the answer `error` with its log entry, with the end of the drain where it is finished. -/
theorem completeErrLogsAndDrops : Obligations.CompleteErrLogsAndDrops := by
  intro s rest c ha hs hf
  refine ⟨fun h => ?_, fun h => step_respond_of_unfinished ha hs hf h⟩
  rw [step_respond_of_finished ha hs hf h]
  simp [record, answered, logWriteError]

/-- Settles O27: CLOSE by `dstate`, and in `Running` by whether there is anything to drain. -/
theorem closeDrains : Obligations.CloseDrains := by
  intro s rest ha
  refine ⟨fun hd => ?_, fun ⟨hd, hq, hf⟩ => ?_, fun ⟨hd, hb⟩ => step_close_of_busy ha hd hb, fun hd => ?_⟩
  · rw [step_of_agent ha, act, close_of_created (s := movedOn rest s) hd]
    simp [record]
  · rw [step_close_of_idle ha hd hq hf]
    simp [record]
  · rw [step_of_agent ha, act, close_of_closed (s := movedOn rest s) hd]

end Sys2Proof.Proofs

/-! SUPPORT. A write that the sink does not answer (R222): it stays in flight, and nothing is issued behind it. -/

namespace Sys2Proof.Machine

/-- `s` comes after `s₀` with the same write, that of the command `c`, outstanding, and the block at work: no frame has been issued since,
and no command has left the queue. -/
structure HungSince (s₀ : State) (c : Command) (s : State) : Prop where
  inflight : s.inflight = some c
  atWork : s.dstate = .running ∨ s.dstate = .draining
  issued : issuedIn s.hist = issuedIn s₀.hist
  queue : s₀.queue <+: s.queue

/-- A write is outstanding only where the block is at work (I3, I4). -/
theorem hungSince_self {s : State} {c : Command} (hs : Inv s) (hf : s.inflight = some c) : HungSince s c s :=
  ⟨hf, hs.running_or_draining hf, rfl, List.prefix_rfl⟩

/-- A hung write survives whatever leaves these readings of the state. -/
theorem HungSince.of_same {s₀ s t : State} {c : Command} (hs : HungSince s₀ c s) (hf : t.inflight = s.inflight)
    (hd : t.dstate = s.dstate) (hi : issuedIn t.hist = issuedIn s.hist) (hq : t.queue = s.queue) : HungSince s₀ c t :=
  ⟨hf.trans hs.inflight, hd ▸ hs.atWork, hi.trans hs.issued, hq ▸ hs.queue⟩

/-- With a write outstanding DISPATCH is not enabled (R183). -/
theorem HungSince.takeHead_eq_none {s₀ s : State} {c : Command} (hs : HungSince s₀ c s) : takeHead s = none :=
  takeHead_of_not_enabled (.inr (.inr (.inl (by simp [hs.inflight]))))

/-- ENQUEUE leaves the queue as it was, or appends the command at its tail (R60, R182). -/
theorem queue_prefix_enqueue (c : Command) (s : State) : s.queue <+: (enqueue c s).queue := by
  rcases enqueue_cases c s with ⟨-, e⟩ | ⟨-, e⟩ | ⟨-, -, e⟩ | ⟨-, -, -, e⟩ | ⟨-, -, -, -, e⟩ | ⟨-, -, -, -, e⟩ <;> simp [e]

theorem HungSince.after_enqueue {s₀ s : State} {c : Command} (hs : HungSince s₀ c s) (d : Command) :
    HungSince s₀ c (enqueue d s) where
  inflight := by simpa using hs.inflight
  atWork := by simpa using hs.atWork
  issued := (issuedIn_enqueue d s).trans hs.issued
  queue := hs.queue.trans (queue_prefix_enqueue d s)

/-- CLOSE cancels no write: with one outstanding the block drains, and does not stop at once (R186). -/
theorem HungSince.after_close {s₀ s : State} {c : Command} (hs : HungSince s₀ c s) : HungSince s₀ c (close s) where
  inflight := by simpa using hs.inflight
  atWork := by
    rcases hs.atWork with hd | hd
    · rw [close_of_running_busy hd (.inr (by simp [hs.inflight]))]
      exact .inr rfl
    · rw [close_of_closed (.inl hd)]
      exact .inr hd
  issued := (issuedIn_close s).trans hs.issued
  queue := by simpa using hs.queue

theorem HungSince.after_dispatch {s₀ s : State} {c : Command} (hs : HungSince s₀ c s) : HungSince s₀ c (dispatch s) := by
  rwa [dispatch_of_not_enabled (.inr (.inr (.inl (by simp [hs.inflight]))))]

/-- A transfer can only move the encoder on in the frame of the outstanding write. -/
theorem HungSince.after_transfer {s₀ s : State} {c : Command} (hs : HungSince s₀ c s) : HungSince s₀ c (wireTransfer s) := by
  rcases wireTransfer_cases s with ⟨-, -, e⟩ | ⟨-, -, e⟩ | ⟨-, -, e⟩ | ⟨-, d, t, ht, -⟩
  · rw [e]
    exact hs.of_same rfl rfl rfl rfl
  · rw [e]
    exact hs.of_same rfl rfl rfl rfl
  · rwa [e]
  · simp [hs.takeHead_eq_none] at ht

/-- Only the sink's answer and a hardware reset end a write (R222). -/
theorem HungSince.after_act {s₀ s : State} {c : Command} {a : AgentStep} (hs : HungSince s₀ c s) (hr : a ≠ .hardwareReset)
    (hn : ∀ r, a ≠ .respond r) : HungSince s₀ c (act a s) := by
  rcases act_cases a s with e | ⟨ha, -⟩ | e | e | e | e | ⟨r, ha, -⟩
  · rwa [e]
  · exact absurd ha hr
  · rwa [e, start_of_not_created (DState.ne_of_at_work hs.atWork).1]
  · rw [e]
    exact hs.after_close
  · rw [e]
    exact hs.after_dispatch
  · rw [e]
    exact hs.after_transfer
  · exact absurd ha (hn r)

theorem HungSince.after_step {s₀ s t : State} {c : Command} (hs : HungSince s₀ c s)
    (hr : nextMove s ≠ some (.agent .hardwareReset)) (hn : ∀ r, nextMove s ≠ some (.agent (.respond r))) (h : step s = .next t) :
    HungSince s₀ c t := by
  have hb : HungSince s₀ c (beginStep s) := hs.of_same rfl rfl rfl rfl
  rcases step_answers_next s with ⟨-, e⟩ | ⟨p, -, e⟩ | ⟨a, hm, e⟩ <;> rw [e] at h <;> cases h
  · exact hb.after_dispatch
  · exact hb.after_enqueue _
  · exact hb.after_act (fun ha => hr (ha ▸ hm)) fun r ha => hn r (ha ▸ hm)

/-- No answer of the sink is among the coming moves. -/
def sinkSilent (s : State) : Prop := ∀ a, Move.agent (.respond a) ∉ s.agenda

theorem sinkSilent.nextMove_ne {s : State} (hs : sinkSilent s) (a : Answer) : nextMove s ≠ some (.agent (.respond a)) :=
  fun hm => hs a (List.mem_of_head? hm)

theorem sinkSilent.after_step {s t : State} (hs : sinkSilent s) (h : step s = .next t) : sinkSilent t :=
  fun a hm => hs a (List.mem_of_mem_tail (step_agenda h ▸ hm))

theorem HungSince.after_runSteps {s₀ s t : State} {c : Command} {n : Nat} (hs : HungSince s₀ c s) (hn : sinkSilent s)
    (hr : Move.agent .hardwareReset ∉ s.agenda) (h : runSteps n s = .next t) : HungSince s₀ c t :=
  have hung : HungSince s₀ c t ∧ sinkSilent t :=
    runSteps_keeps_without_reset (P := fun u => HungSince s₀ c u ∧ sinkSilent u)
      (fun _ _ hu hru hstep => ⟨hu.1.after_step hru hu.2.nextMove_ne hstep, hu.2.after_step hstep⟩) ⟨hs, hn⟩ hr h
  hung.1

/-! ### Moves that change nothing -/

/-- An answer that is no move changes nothing (R223). -/
theorem respond_of_stray (a : Answer) {s : State} (h : s.inflight = none ∨ s.enc.sending = true) : respond a s = s :=
  h.elim (respond_of_not_inflight a) (respond_of_sending a)

end Sys2Proof.Machine

/-! The statements about the host and the sink: an answer that does not come, one that comes unasked, and the bootstrap. -/

namespace Sys2Proof.Proofs

open Sys2Proof Sys2Proof.Machine

/-- Settles O45: with a write outstanding DISPATCH is not enabled and CLOSE only begins a drain, so every step but an answer and a hardware
reset leaves the write, the frames issued and the queued commands alone. -/
theorem hungWriteStallsTheBlock : Obligations.HungWriteStallsTheBlock := by
  intro n s t c hs hf hn hr h
  have ht := (hungSince_self hs hf).after_runSteps hn hr h
  obtain ⟨more, hmore⟩ := ht.queue
  exact ⟨ht.inflight, (DState.ne_of_at_work ht.atWork).2, ht.issued, more, hmore.symm⟩

/-- Settles O26: the step is RESPOND, which is no move here. -/
theorem strayAnswersAreIgnored : Obligations.StrayAnswersAreIgnored := by
  intro s rest a ha h
  rw [step_of_agent ha, act, respond_of_stray (s := movedOn rest s) a h]

/-- Settles O29: a failed bootstrap and a status read are no operation; a successful bootstrap is START, with the same moves to come. -/
theorem bootstrapAtItsBoundary : Obligations.BootstrapAtItsBoundary := by
  refine fun s rest => ⟨?_, fun ha => ?_⟩
  · rintro (ha | ha | ha) <;> rw [step_of_agent ha] <;> rfl
  · exact (step_of_agent ha).trans (step_of_agent (s := { s with agenda := .agent .start :: rest }) rfl).symm

end Sys2Proof.Proofs
